-- ==== Sys2Proof/Word.lean ====
section
/-! DEFINITION. The word types of the LS-8 and nothing else. -/

namespace Sys2Proof

/-- An unsigned 8-bit value, bit 7 most significant: the contents of a register or of a memory cell (R6, R11, R30). -/
abbrev Byte := BitVec 8

/-- A register number 0 to 7, already reduced to the low 3 bits of its operand byte (R11, R12). -/
abbrev Reg := Fin 8

end Sys2Proof
end

