-- ==== Sys2Proof/Config.lean ====
section
/-! DEFINITION. The parameters of the hardware (00_scope.md R5) as one record, and the type FLAG_RESET ranges over.
The default values stand in `Config.standard` (Decode.lean). There is no opaque constant in this model: the spec leaves no RESULT of an
instruction open, and its one OPEN value (FLAG_RESET, R18) is the field `flagReset`, over which the statements quantify. -/

namespace Sys2Proof

/-- The three values of the compare flag (R17); they have no numeric encoding. -/
inductive CompareFlag where
  | equal
  | lessThan
  | greaterThan
  deriving DecidableEq, Repr

/-- The parameters of R5 that are not constants. -/
structure Config where
  /-- SP_RESET, register 7 after reset: "parameter with default" (R5, R26, D4). -/
  spReset : Byte
  /-- FLAG_RESET, the compare flag after reset: OPEN, any one of the three values (R5, R18, D5). -/
  flagReset : CompareFlag
  /-- OPC_INC, the opcode byte of INC (R5, R55, D6). -/
  opcInc : Byte
  /-- OPC_DEC, the opcode byte of DEC (R5, R55, D6). -/
  opcDec : Byte
  /-- The switch of R55 and D6: false is "INC and DEC not dispatched", the document's table to the letter. -/
  incDecDispatched : Bool
  deriving DecidableEq, Repr

end Sys2Proof
end

