-- ==== Sys2Proof/Syntax.lean ====
section
/-! DEFINITION. The abstract syntax of the instruction set: one constructor per row of spec/opcode_table.json. -/

namespace Sys2Proof

/-- The 16 instructions (R54, R55) with the operands of their formats (R51). A register operand is the number the operand byte
selects; the ignored bits 7..3 of that byte are "not recorded" (R51). -/
inductive Instr where
  /-- HLT, format Z (R92). -/
  | hlt
  /-- LDI Ra, imm, format RI (R90). -/
  | ldi (ra : Reg) (imm : Byte)
  /-- PRN Ra, format R (R91). -/
  | prn (ra : Reg)
  /-- ADD Ra, Rb, format RR (R81). -/
  | add (ra rb : Reg)
  /-- SUB Ra, Rb, format RR (R82). -/
  | sub (ra rb : Reg)
  /-- MUL Ra, Rb, format RR (R83). -/
  | mul (ra rb : Reg)
  /-- PUSH Ra, format R (R95). -/
  | push (ra : Reg)
  /-- POP Ra, format R (R96). -/
  | pop (ra : Reg)
  /-- CALL Ra, format R (R101). -/
  | call (ra : Reg)
  /-- RET, format Z (R102). -/
  | ret
  /-- CMP Ra, Rb, format RR (R86). -/
  | cmp (ra rb : Reg)
  /-- JMP Ra, format R (R103). -/
  | jmp (ra : Reg)
  /-- JEQ Ra, format R (R104). -/
  | jeq (ra : Reg)
  /-- JNE Ra, format R (R105). -/
  | jne (ra : Reg)
  /-- INC Ra, format R (R84). -/
  | inc (ra : Reg)
  /-- DEC Ra, format R (R85). -/
  | dec (ra : Reg)
  deriving DecidableEq, Repr

end Sys2Proof
end

