-- ==== Sys2Proof/WellFormed.lean ====
section
/-! DEFINITION. Which instructions the hardware has under given parameters. Register numbers and the immediate are in range by
their types, so the only check is the switch of R55. -/

namespace Sys2Proof

/-- An instruction exists under the parameters `c`: the 14 documented ones always (R54), INC and DEC when they are dispatched (R55). -/
def Instr.wf (c : Config) : Instr → Bool
  | .hlt => true
  | .ldi _ _ => true
  | .prn _ => true
  | .add _ _ => true
  | .sub _ _ => true
  | .mul _ _ => true
  | .push _ => true
  | .pop _ => true
  | .call _ => true
  | .ret => true
  | .cmp _ _ => true
  | .jmp _ => true
  | .jeq _ => true
  | .jne _ => true
  | .inc _ => c.incDecDispatched
  | .dec _ => c.incDecDispatched

end Sys2Proof
end

