-- ==== Sys2Proof/Decode.lean ====
section
/-! DEFINITION. The dispatcher's table (R54, R55), the decoder (R50 to R53, R57, R62, R72, R73) and, after it, the encoder. -/

namespace Sys2Proof

/-! ## Parameters -/

/-- The default parameters of R5. SP_RESET = 244 (D4); FLAG_RESET = LESS_THAN is the model's choice (DESIGN CHOICE, log 1, unsafe);
OPC_INC = 0x65 and OPC_DEC = 0x66 are the spec's general-knowledge defaults (D6; PRESUMED, log 3, unsafe); INC and DEC are dispatched (D6). -/
def Config.standard : Config :=
  { spReset := 244#8
    flagReset := .lessThan
    opcInc := 0b01100101#8
    opcDec := 0b01100110#8
    incDecDispatched := true }

/-! ## The dispatcher's table -/

/-- The actions of the dispatcher's table, one per opcode ("handler", R9, R72). -/
inductive Handler where
  | hlt | ldi | prn | add | sub | mul | push | pop | call | ret | cmp | jmp | jeq | jne | inc | dec
  deriving DecidableEq, Repr

/-- The declared operand count of a handler (R54, R55). -/
def Handler.operandCount : Handler → Nat
  | .hlt => 0
  | .ldi => 2
  | .prn => 1
  | .add => 2
  | .sub => 2
  | .mul => 2
  | .push => 1
  | .pop => 1
  | .call => 1
  | .ret => 0
  | .cmp => 2
  | .jmp => 1
  | .jeq => 1
  | .jne => 1
  | .inc => 1
  | .dec => 1

/-- The five handlers that set `pc` themselves (R74). -/
def Handler.setsPc (h : Handler) : Bool :=
  h == .jmp || h == .jeq || h == .jne || h == .call || h == .ret

/-- The six handlers that are operations of the ALU (R80). -/
def Handler.isAlu (h : Handler) : Bool :=
  h == .add || h == .sub || h == .mul || h == .inc || h == .dec || h == .cmp

/-- The 14 rows of R54, in the document's order. -/
def documentedRows : List (Byte × Handler) :=
  [ (0b00000001#8, .hlt),
    (0b10000010#8, .ldi),
    (0b01000111#8, .prn),
    (0b10100000#8, .add),
    (0b10100001#8, .sub),
    (0b10100010#8, .mul),
    (0b01000101#8, .push),
    (0b01000110#8, .pop),
    (0b01010000#8, .call),
    (0b00010001#8, .ret),
    (0b10100111#8, .cmp),
    (0b01010100#8, .jmp),
    (0b01010101#8, .jeq),
    (0b01010110#8, .jne) ]

/-- The rows of R55, present when INC and DEC are dispatched. -/
def incDecRows (c : Config) : List (Byte × Handler) :=
  if c.incDecDispatched then [(c.opcInc, .inc), (c.opcDec, .dec)] else []

/-- The dispatcher's table, fixed for a machine (R25, R72). -/
def opcodeTable (c : Config) : List (Byte × Handler) :=
  documentedRows ++ incDecRows c

/-- Legal parameters: no opcode byte stands in two rows ("They collide with none of the 14 values", R55). -/
def Config.wf (c : Config) : Bool :=
  decide ((opcodeTable c).map Prod.fst).Nodup

/-- `Dispatch(op)` of R72: table lookup on all 8 bits of the opcode byte. -/
def dispatch (c : Config) (op : Byte) : Option Handler :=
  ((opcodeTable c).find? fun row => row.1 == op).map Prod.snd

/-! ## Operands -/

/-- `idx(v) = v mod 8` (R6): the masking of an index to its low 3 bits (R12). -/
def idx (v : Nat) : Reg := Fin.ofNat 8 v

/-- The register a register-operand byte selects (R12, R53): bits 7 to 3 are ignored. -/
def regOperand (a : Byte) : Reg := idx a.toNat

/-- The instruction a handler makes of the first `operandCount` of the two bytes after the opcode; the others are dropped (R51, R73).
The immediate of LDI is the whole second byte (R62). -/
def Handler.instr (h : Handler) (a b : Byte) : Instr :=
  match h with
  | .hlt => .hlt
  | .ldi => .ldi (regOperand a) b
  | .prn => .prn (regOperand a)
  | .add => .add (regOperand a) (regOperand b)
  | .sub => .sub (regOperand a) (regOperand b)
  | .mul => .mul (regOperand a) (regOperand b)
  | .push => .push (regOperand a)
  | .pop => .pop (regOperand a)
  | .call => .call (regOperand a)
  | .ret => .ret
  | .cmp => .cmp (regOperand a) (regOperand b)
  | .jmp => .jmp (regOperand a)
  | .jeq => .jeq (regOperand a)
  | .jne => .jne (regOperand a)
  | .inc => .inc (regOperand a)
  | .dec => .dec (regOperand a)

/-! ## The decoder -/

/-- Why bytes are no instruction. -/
inductive DecodeError where
  /-- The opcode byte is in no row of the table (R57). -/
  | invalidOpcode (op : Byte)
  /-- A byte list ends before the instruction's last byte. The engine never meets it: it always fetches three bytes (R52). -/
  | truncated
  deriving DecidableEq, Repr

/-- Decode the three fetched bytes (R52, R72, R73). -/
def decode (c : Config) (op a b : Byte) : Except DecodeError Instr :=
  match dispatch c op with
  | some h => .ok (h.instr a b)
  | none => .error (.invalidOpcode op)

/-- Decode the first instruction of a list of bytes and give the bytes after it: the opcode byte alone decides the length (R50). -/
def decodeBytes (c : Config) : List Byte → Except DecodeError (Instr × List Byte)
  | [] => .error .truncated
  | op :: rest =>
    match dispatch c op with
    | none => .error (.invalidOpcode op)
    | some h =>
      if rest.length < h.operandCount then .error .truncated
      else .ok (h.instr (rest.getD 0 0#8) (rest.getD 1 0#8), rest.drop h.operandCount)

/-! ## The encoder -/

/-- The handler of an instruction (R54, R55). -/
def Instr.handler : Instr → Handler
  | .hlt => .hlt
  | .ldi _ _ => .ldi
  | .prn _ => .prn
  | .add _ _ => .add
  | .sub _ _ => .sub
  | .mul _ _ => .mul
  | .push _ => .push
  | .pop _ => .pop
  | .call _ => .call
  | .ret => .ret
  | .cmp _ _ => .cmp
  | .jmp _ => .jmp
  | .jeq _ => .jeq
  | .jne _ => .jne
  | .inc _ => .inc
  | .dec _ => .dec

/-- The length in bytes, `1 + operand_count` (R50). -/
def Instr.length (i : Instr) : Nat := 1 + i.handler.operandCount

/-- The opcode byte of a handler, from the hexadecimal column of R54 and the parameters of R55. -/
def Handler.opcode (c : Config) : Handler → Byte
  | .hlt => 0x01#8
  | .ldi => 0x82#8
  | .prn => 0x47#8
  | .add => 0xA0#8
  | .sub => 0xA1#8
  | .mul => 0xA2#8
  | .push => 0x45#8
  | .pop => 0x46#8
  | .call => 0x50#8
  | .ret => 0x11#8
  | .cmp => 0xA7#8
  | .jmp => 0x54#8
  | .jeq => 0x55#8
  | .jne => 0x56#8
  | .inc => c.opcInc
  | .dec => c.opcDec

/-- The canonical operand byte of a register: the ignored bits are 0 (R51). -/
def regByte (r : Reg) : Byte := BitVec.ofNat 8 r.val

/-- The operand bytes of an instruction in address order (R34, R51). -/
def Instr.operandBytes : Instr → List Byte
  | .hlt => []
  | .ldi ra imm => [regByte ra, imm]
  | .prn ra => [regByte ra]
  | .add ra rb => [regByte ra, regByte rb]
  | .sub ra rb => [regByte ra, regByte rb]
  | .mul ra rb => [regByte ra, regByte rb]
  | .push ra => [regByte ra]
  | .pop ra => [regByte ra]
  | .call ra => [regByte ra]
  | .ret => []
  | .cmp ra rb => [regByte ra, regByte rb]
  | .jmp ra => [regByte ra]
  | .jeq ra => [regByte ra]
  | .jne ra => [regByte ra]
  | .inc ra => [regByte ra]
  | .dec ra => [regByte ra]

/-- The canonical bytes of an instruction, opcode first (R50, R51). -/
def encode (c : Config) (i : Instr) : List Byte :=
  i.handler.opcode c :: i.operandBytes

/-! ## Words as spec/opcode_table.json numbers them -/

/-- Byte `k` of an instruction whose bits are `w`: bit 0 is the least significant bit of the first byte, and every bit from
`nbits` on is 0. -/
def tableByte (nbits w k : Nat) : Byte := BitVec.ofNat 8 ((w % 2 ^ nbits) / 2 ^ (8 * k))

/-- The instruction the decoder reads from an instruction whose bits are `w` (the default parameters). -/
def decodeTableWord (nbits w : Nat) : Option Instr :=
  match decode Config.standard (tableByte nbits w 0) (tableByte nbits w 1) (tableByte nbits w 2) with
  | .ok i => some i
  | .error _ => none

end Sys2Proof
end

