-- ==== Sys2Proof/Machine/State.lean ====
section
/-! DEFINITION. The state of the machine as plain data (R10), the reasons a run can stop, and the state after reset (R26). -/

namespace Sys2Proof.Machine

/-- Memory as (address, byte) pairs in canonical form; a cell not listed reads as `Memory.unlisted` (R23, R30). -/
abbrev Memory := List Host.Cell

/-- What an unlisted cell reads as: memory is "zero-initialized" (R26). -/
def Memory.unlisted : Byte := 0#8

/-- The canonical form: addresses strictly rising and below 256 (R30), no entry equal to what an unlisted cell reads as. -/
abbrev Memory.wf (m : Memory) : Prop :=
  m.Pairwise (fun c d => c.1 < d.1) ∧ ∀ c ∈ m, c.1 < 256 ∧ c.2 ≠ Memory.unlisted

/-- The register file: 8 slots of 8 bits, slot 7 the stack pointer (R11, R14). -/
abbrev RegisterFile := Vector Byte 8

/-- The engine's two states (R19). -/
inductive RunState where
  | running
  | halted
  deriving DecidableEq, Repr

/-- The fatal conditions of R110 with the data they record (D14); the values of `err` other than None. -/
inductive FatalCondition where
  /-- The byte `op` fetched at `pc` is not in the dispatcher's table (R111). -/
  | invalidOpcode (op : Byte) (pc : Nat)
  /-- An access at `addr`, outside 0..255, by the step at `pc` (R112). -/
  | addressOutOfRange (addr pc : Nat)
  /-- The ALU is asked for an operation it does not have (R113); no instruction asks. -/
  | unsupportedAluOperation
  deriving DecidableEq, Repr

/-- Why an outcome is a fault. A fatal condition of the hardware is NOT one: taking it is a next state (R117). -/
inductive Fault where
  /-- The host operations `hostStep` and `runToHalt` asked of a HALTED engine, where R77 and R78 do not define them. Raised by those
  two only, never by `exec` or `step`. Safe: it stops where the spec gives no effect. -/
  | notRunning
  deriving DecidableEq, Repr

/-- Why an outcome is a refusal. -/
inductive Refusal where
  /-- An instruction that has no meaning yet; no arm of `exec` raises it. Safe. -/
  | notModelled (mnemonic : String)
  /-- The host's load of an image of more than 256 bytes, which a model "refuses ... rather than truncate" (R132, D11). Raised by
  `loadImage` only. Safe. -/
  | imageTooLong (size : Nat)
  deriving DecidableEq, Repr

/-- "The whole state of the machine is the tuple below" (R10), under the spec's names. -/
structure State where
  /-- `mem[0..255]` (R23). -/
  mem : Memory
  /-- `x[0..7]`; `x[7]` is SP (R11, R14). -/
  x : RegisterFile
  /-- The program counter, a natural number that never wraps (R15, R16). -/
  pc : Nat
  /-- The compare flag (R17). -/
  fl : CompareFlag
  /-- RUNNING or HALTED (R19). -/
  run : RunState
  /-- Why the engine halted; None after reset and after HLT (R20). -/
  err : Option FatalCondition
  /-- The bytes emitted by PRN, oldest first (R24). -/
  out : List Byte
  deriving DecidableEq, Repr

/-- The state after reset and before the load, under the parameters `c` (R26). -/
def State.resetWith (c : Config) : State :=
  { mem := []
    x := #v[0#8, 0#8, 0#8, 0#8, 0#8, 0#8, 0#8, c.spReset]
    pc := 0
    fl := c.flagReset
    run := .running
    err := none
    out := [] }

/-- The state after reset under the default parameters (R26; FLAG_RESET is DESIGN CHOICE, log 1, unsafe). -/
def State.reset : State := State.resetWith Config.standard

end Sys2Proof.Machine
end

