-- ==== Sys2Proof/Machine/Ops.lean ====
section
/-! DEFINITION. The named operations over memory, registers and the engine's control state, with the taking of a fatal condition
(R117). There is no return from one (R118), so none stands beside it: only reset leaves HALTED. -/

namespace Sys2Proof.Machine

/-! ## Memory (R30 to R32) -/

/-- The cell at an address; the range check is `State.memRead`'s (log 16). -/
def Memory.read (m : Memory) (addr : Nat) : Byte :=
  match m with
  | [] => Memory.unlisted
  | (k, v) :: rest => if k = addr then v else Memory.read rest addr

/-- Put `v` in the cell at `addr`, keeping the canonical form: an entry that reads as an unlisted cell is dropped. -/
def Memory.write (m : Memory) (addr : Nat) (v : Byte) : Memory :=
  match m with
  | [] => if v = Memory.unlisted then [] else [(addr, v)]
  | (k, w) :: rest =>
    if k < addr then (k, w) :: Memory.write rest addr v
    else
      let tail := if k = addr then rest else (k, w) :: rest
      if v = Memory.unlisted then tail else (addr, v) :: tail

/-- `write` a list of bytes at consecutive addresses (R132). -/
def Memory.writeBytes (m : Memory) (addr : Nat) : List Byte → Memory
  | [] => m
  | b :: rest => Memory.writeBytes (Memory.write m addr b) (addr + 1) rest

/-- Replace the memory. -/
def State.setMem (s : State) (m : Memory) : State := { s with mem := m }

/-- `MemRead(addr, 1)` (R7, R31): fails fast outside 0..255, has no side effect. -/
def State.memRead (s : State) (addr : Nat) : Except FatalCondition Byte :=
  if addr > 255 then .error (.addressOutOfRange addr s.pc) else .ok (s.mem.read addr)

/-- `MemWrite(addr, 1, v)` (R7, R32): stores `v mod 256`, same range contract. -/
def State.memWrite (s : State) (addr v : Nat) : Except FatalCondition State :=
  if addr > 255 then .error (.addressOutOfRange addr s.pc)
  else .ok (s.setMem (s.mem.write addr (BitVec.ofNat 8 v)))

/-! ## Registers (R11 to R14) -/

/-- `byte(v) = v mod 256`, also for negative `v` (R6): the masking of a value to 8 bits (R13). -/
def byteOf (v : Int) : Byte := BitVec.ofInt 8 v

/-- `get(index)`: masks the index to 3 bits before the lookup (R12). -/
def RegisterFile.getAt (x : RegisterFile) (index : Nat) : Byte := x.get (idx index)

/-- `set(index, value)`: masks the index to 3 bits and the value to 8 bits, then stores (R12, R13). -/
def RegisterFile.setAt (x : RegisterFile) (index : Nat) (v : Int) : RegisterFile :=
  x.set (idx index).val (byteOf v) (idx index).isLt

/-- `x[r]` (R7). -/
def State.reg (s : State) (r : Reg) : Byte := RegisterFile.getAt s.x r.val

/-- `x[r] <- byte(v)` (R7, R13). -/
def State.writeReg (s : State) (r : Reg) (v : Int) : State :=
  { s with x := RegisterFile.setAt s.x r.val v }

/-- SP_INDEX (R5): the stack pointer is register 7 (R14). -/
def spIndex : Reg := 7

/-- `sp`, another name for `x[7]` (R7, R14). -/
def State.sp (s : State) : Byte := s.reg spIndex

/-! ## Program counter, flag, output (R15 to R17, R24, R74) -/

/-- `pc <- t` (R7). -/
def State.setPc (s : State) (t : Nat) : State := { s with pc := t }

/-- The engine's `pc <- pc + 1 + n` after a handler with `n` operands that did not set `pc`; the sum is not reduced (R16, R74). -/
def State.advance (s : State) (n : Nat) : State := { s with pc := s.pc + 1 + n }

/-- `fl <- f` (R7). -/
def State.setFlag (s : State) (f : CompareFlag) : State := { s with fl := f }

/-- `out <- out ++ [v]` (R24, R91). -/
def State.emit (s : State) (v : Byte) : State := { s with out := s.out ++ [v] }

/-- `run <- HALTED` with `err` as it is: the halt by HLT (R92). -/
def State.halt (s : State) : State := { s with run := .halted }

/-! ## Taking a fatal condition (R117) -/

/-- `raise E(info)`: "err <- E(info)", "run <- HALTED", everything else unchanged (R7, R117, D3). -/
def State.raise (s : State) (e : FatalCondition) : State :=
  { s with run := .halted, err := some e }

/-- The end of an instruction begun in `s`: all its effects, or a fatal condition with no effect but `raise`'s (R75, R117). -/
def State.complete (s : State) (r : Except FatalCondition State) : Host.Outcome State Fault Refusal :=
  match r with
  | .ok t => .next t
  | .error e => .next (s.raise e)

/-! ## Fetch (R52, R70, R71) -/

/-- The three range-checked reads at `pc`, `pc+1`, `pc+2`, in that order, whatever the opcode; the addresses do not wrap. -/
def State.fetch (s : State) : Except FatalCondition (Byte × Byte × Byte) :=
  match s.memRead s.pc with
  | .error e => .error e
  | .ok op =>
    match s.memRead (s.pc + 1) with
    | .error e => .error e
    | .ok a =>
      match s.memRead (s.pc + 2) with
      | .error e => .error e
      | .ok b => .ok (op, a, b)

end Sys2Proof.Machine
end

