-- ==== Sys2Proof/Machine/Flags.lean ====
section
/-! DEFINITION. The compare flag: its one computation (R86) and its one test (R17). There is no carry, overflow, zero or sign flag (R17). -/

namespace Sys2Proof.Machine

/-- The flag CMP sets from an unsigned comparison of two bytes (R86). -/
def compareBytes (u v : Byte) : CompareFlag :=
  if u.toNat = v.toNat then .equal
  else if u.toNat < v.toNat then .lessThan
  else .greaterThan

/-- "flag is EQUAL", the only condition a conditional jump has, beside its negation (R17, R100). -/
def State.flagIsEqual (s : State) : Bool := s.fl == .equal

end Sys2Proof.Machine
end

