-- ==== Sys2Proof/Machine/Operands.lean ====
section
/-! DEFINITION. The operand forms of the instruction set: register, immediate and the stack cell (R53, R62, R97). There is no other
form (R53). A register operand is read by `State.reg` and the immediate is the byte itself, so what stands here is the one addressing
mode of memory, pre-decrement on a store and post-increment on a load, and the register-indirect target. -/

namespace Sys2Proof.Machine

/-- `x[7] <- (x[7] - 1) mod 256` (R14, R95, R101). -/
def State.decSp (s : State) : State := s.writeReg spIndex (s.sp.toNat - 1)

/-- `x[7] <- (x[7] + 1) mod 256` (R14, R96, R102). -/
def State.incSp (s : State) : State := s.writeReg spIndex (s.sp.toNat + 1)

/-- The address a stack store of an instruction begun in `s` goes to: "the value of `sp` after it has been decremented by one" (R97). -/
def State.pushAddr (s : State) : Nat := s.decSp.sp.toNat

/-- The address a stack load of an instruction begun in `s` reads: "the value of `sp` before it is incremented by one" (R97). -/
def State.popAddr (s : State) : Nat := s.sp.toNat

/-- The stack store of PUSH and CALL: decrement `sp`, then write to the cell it names the value `v` gives in the decremented state
(R7, R95, R97, R101; statements in the written order, D8). -/
def State.stackStore (s : State) (v : State → Nat) : Except FatalCondition State :=
  s.decSp.memWrite s.pushAddr (v s.decSp)

/-- The stack load of POP and RET: the byte at `sp`, before the increment (R96, R97, R102). -/
def State.stackLoad (s : State) : Except FatalCondition Byte := s.memRead s.popAddr

/-- The target a register holds, zero-extended into `pc` (R100). -/
def State.target (s : State) (ra : Reg) : Nat := (s.reg ra).toNat

end Sys2Proof.Machine
end

