-- ==== Sys2Proof/Machine/Alu.lean ====
section
/-! DEFINITION. The ALU (R80, R87, R88) and the meanings of its six instructions. -/

namespace Sys2Proof.Machine

/-- The name of an operation asked of the ALU (R88). `unsupported` stands for every name that is none of the six. -/
inductive AluOp where
  | add | sub | mul | inc | dec | cmp
  | unsupported
  deriving DecidableEq, Repr

/-- What an operation yields before anything is written. -/
inductive AluEffect where
  /-- The exact result, not yet reduced modulo 256. -/
  | result (v : Int)
  /-- A value for the compare flag. -/
  | flag (f : CompareFlag)
  /-- The defensive case of R88. -/
  | noSuchOperation
  deriving DecidableEq, Repr

/-- The operations on the two unsigned operand values (R80 to R87); INC and DEC use the first only. -/
def aluEffect (op : AluOp) (u v : Byte) : AluEffect :=
  match op with
  | .add => .result (u.toNat + v.toNat)
  | .sub => .result (u.toNat - v.toNat)
  | .mul => .result (u.toNat * v.toNat)
  | .inc => .result (u.toNat + 1)
  | .dec => .result (u.toNat - 1)
  | .cmp => .flag (compareBytes u v)
  | .unsupported => .noSuchOperation

/-- The ALU on registers `ra` and `rb`: both operands are read, then `ra` is written modulo 256, or the flag is written, or, for a
name that is none of the six, UnsupportedAluOperation is the outcome (R80, R88, R113; log 13). -/
def State.alu (s : State) (op : AluOp) (ra rb : Reg) : Except FatalCondition State :=
  match aluEffect op (s.reg ra) (s.reg rb) with
  | .result v => .ok (s.writeReg ra v)
  | .flag f => .ok (s.setFlag f)
  | .noSuchOperation => .error .unsupportedAluOperation

/-- An ALU instruction with `n` operands: the ALU, then the engine's advance (R74). -/
def State.aluInstr (s : State) (op : AluOp) (ra rb : Reg) (n : Nat) : Host.Outcome State Fault Refusal :=
  s.complete ((s.alu op ra rb).map fun t => t.advance n)

/-- ADD (R81): `x[ra] <- (x[ra] + x[rb]) mod 256; pc <- pc + 3`. -/
def execAdd (ra rb : Reg) (s : State) : Host.Outcome State Fault Refusal := s.aluInstr .add ra rb 2

/-- SUB (R82): `x[ra] <- (x[ra] - x[rb]) mod 256; pc <- pc + 3`. -/
def execSub (ra rb : Reg) (s : State) : Host.Outcome State Fault Refusal := s.aluInstr .sub ra rb 2

/-- MUL (R83): `x[ra] <- (x[ra] * x[rb]) mod 256; pc <- pc + 3`. -/
def execMul (ra rb : Reg) (s : State) : Host.Outcome State Fault Refusal := s.aluInstr .mul ra rb 2

/-- INC (R84): `x[ra] <- (x[ra] + 1) mod 256; pc <- pc + 2`. -/
def execInc (ra : Reg) (s : State) : Host.Outcome State Fault Refusal := s.aluInstr .inc ra ra 1

/-- DEC (R85): `x[ra] <- (x[ra] - 1) mod 256; pc <- pc + 2`. -/
def execDec (ra : Reg) (s : State) : Host.Outcome State Fault Refusal := s.aluInstr .dec ra ra 1

/-- CMP (R86): `fl` from the unsigned comparison of `x[ra]` with `x[rb]`; `pc <- pc + 3`. -/
def execCmp (ra rb : Reg) (s : State) : Host.Outcome State Fault Refusal := s.aluInstr .cmp ra rb 2

end Sys2Proof.Machine
end

