-- ==== Sys2Proof/Machine/Control.lean ====
section
/-! DEFINITION. The meanings of CALL, RET, JMP, JEQ and JNE (44_control_flow.md); they set `pc` themselves (R74). -/

namespace Sys2Proof.Machine

/-- CALL (R101): `x[7] <- (x[7] - 1) mod 256; MemWrite(x[7], 1, pc + 2); pc <- x[ra]`; `x[ra]` is read after the decrement (D8). -/
def execCall (ra : Reg) (s : State) : Host.Outcome State Fault Refusal :=
  s.complete ((s.stackStore fun t => t.pc + 2).map fun t => t.setPc (t.target ra))

/-- RET (R102): `pc <- MemRead(x[7], 1); x[7] <- (x[7] + 1) mod 256`. -/
def execRet (s : State) : Host.Outcome State Fault Refusal :=
  s.complete (s.stackLoad.map fun v => (s.setPc v.toNat).incSp)

/-- JMP (R103): `pc <- x[ra]`. -/
def execJmp (ra : Reg) (s : State) : Host.Outcome State Fault Refusal :=
  s.complete (.ok (s.setPc (s.target ra)))

/-- A jump taken when `taken`, and the fall-through `pc <- pc + 2` otherwise (R104, R105). -/
def State.jumpIf (s : State) (taken : Bool) (ra : Reg) : State :=
  if taken then s.setPc (s.target ra) else s.setPc (s.pc + 2)

/-- JEQ (R104): `pc <- x[ra]` if `fl = EQUAL`, else `pc <- pc + 2`. -/
def execJeq (ra : Reg) (s : State) : Host.Outcome State Fault Refusal :=
  s.complete (.ok (s.jumpIf s.flagIsEqual ra))

/-- JNE (R105): `pc <- x[ra]` if `fl != EQUAL`, else `pc <- pc + 2`. -/
def execJne (ra : Reg) (s : State) : Host.Outcome State Fault Refusal :=
  s.complete (.ok (s.jumpIf (!s.flagIsEqual) ra))

end Sys2Proof.Machine
end

