-- ==== Sys2Proof/Machine/Stack.lean ====
section
/-! DEFINITION. The meanings of PUSH and POP (43_stack.md). -/

namespace Sys2Proof.Machine

/-- PUSH (R95): `x[7] <- (x[7] - 1) mod 256; MemWrite(x[7], 1, x[ra]); pc <- pc + 2`; `x[ra]` is read after the decrement (D8). -/
def execPush (ra : Reg) (s : State) : Host.Outcome State Fault Refusal :=
  s.complete ((s.stackStore fun t => (t.reg ra).toNat).map fun t => t.advance 1)

/-- POP (R96): `x[ra] <- MemRead(x[7], 1); x[7] <- (x[7] + 1) mod 256; pc <- pc + 2`; register 7 is read again after the first
write (D8). -/
def execPop (ra : Reg) (s : State) : Host.Outcome State Fault Refusal :=
  s.complete (s.stackLoad.map fun v => ((s.writeReg ra v.toNat).incSp).advance 1)

end Sys2Proof.Machine
end

