-- ==== Sys2Proof/Machine/System.lean ====
section
/-! DEFINITION. The meanings of LDI, PRN and HLT (42_ldi_prn_hlt.md). -/

namespace Sys2Proof.Machine

/-- LDI (R90): `x[ra] <- b; pc <- pc + 3`. -/
def execLdi (ra : Reg) (imm : Byte) (s : State) : Host.Outcome State Fault Refusal :=
  s.complete (.ok ((s.writeReg ra imm.toNat).advance 2))

/-- PRN (R91): `out <- out ++ [x[ra]]; pc <- pc + 2`. -/
def execPrn (ra : Reg) (s : State) : Host.Outcome State Fault Refusal :=
  s.complete (.ok ((s.emit (s.reg ra)).advance 1))

/-- HLT (R92): `run <- HALTED; pc <- pc + 1` (the advance is D9). -/
def execHlt (s : State) : Host.Outcome State Fault Refusal :=
  s.complete (.ok (s.halt.advance 0))

end Sys2Proof.Machine
end

