-- ==== Sys2Proof/Machine/Cycle.lean ====
section
/-! DEFINITION. The fetch-decode-execute controller (R70 to R78), under any parameters. -/

namespace Sys2Proof.Machine

/-- The fatal condition a decode error is: InvalidOpcode with the byte and `pc` (R72, R110). A fetch gives three bytes, so `truncated`
does not occur. -/
def State.dispatchFatal (s : State) (op : Byte) : DecodeError → FatalCondition
  | .invalidOpcode byte => .invalidOpcode byte s.pc
  | .truncated => .invalidOpcode op s.pc

/-- Dispatch of the three fetched bytes and execution of the handler (R72, R73). -/
def State.dispatchExec (c : Config) (s : State) (op a b : Byte) : Host.Outcome State Fault Refusal :=
  match decode c op a b with
  | .ok i => exec i s
  | .error e => .next (s.raise (s.dispatchFatal op e))

/-- One step of the engine (R70): in HALTED it "does nothing and no state changes"; in RUNNING it fetches, dispatches and executes.
The first condition that fails is the one reported: range checks in address order, then the opcode (R116). -/
def stepWith (c : Config) (s : State) : Host.Outcome State Fault Refusal :=
  match s.run with
  | .halted => .next s
  | .running =>
    match s.fetch with
    | .error e => .next (s.raise e)
    | .ok (op, a, b) => s.dispatchExec c op a b

/-- `s` with the bytes of an instruction whose bits are `w`, as spec/opcode_table.json numbers them, in the three cells the next fetch
reads (R33, R34); a cell that does not exist is not written. -/
def State.placeWord (s : State) (nbits w : Nat) : State :=
  s.setMem (((List.range 3).filter fun k => s.pc + k < 256).foldl
    (fun m k => Memory.write m (s.pc + k) (tableByte nbits w k)) s.mem)

end Sys2Proof.Machine
end

