-- ==== Sys2Proof/Machine/Step.lean ====
section
/-! DEFINITION. The machine's step under the default parameters, and where an instruction stands for the next fetch. -/

namespace Sys2Proof.Machine

/-- One step (R70) under the default parameters of R5. -/
def step (s : State) : Host.Outcome State Fault Refusal := stepWith Config.standard s

/-- `s` with one instruction word stored where `step` fetches its next instruction, at `pc` (log 11). -/
def State.withFetchWord (s : State) (nbits w : Nat) : State := s.placeWord nbits w

end Sys2Proof.Machine
end

