-- ==== Sys2Proof/Machine/HostOps.lean ====
section
/-! DEFINITION. What the host can ask of the engine beside reset (R77): load, step, run to halt, and the trace port (R124). -/

namespace Sys2Proof.Machine

/-- `load(image)` (R132): byte `k` of the image to cell `k`, nothing else; an image of more than 256 bytes is refused (D11). The host
applies it once, right after reset (R77; log 12). -/
def State.loadImage (s : State) (image : List Byte) : Host.Outcome State Fault Refusal :=
  if image.length > 256 then .refused (.imageTooLong image.length)
  else .next (s.setMem (Memory.writeBytes s.mem 0 image))

/-- `Init(image)`: reset followed by the load (R130, R138). -/
def State.init (c : Config) (image : List Byte) : Host.Outcome State Fault Refusal :=
  (State.resetWith c).loadImage image

/-- `step` as a host operation: allowed when RUNNING only (R77, R78). -/
def State.hostStep (c : Config) (s : State) : Host.Outcome State Fault Refusal :=
  match s.run with
  | .halted => .fault .notRunning
  | .running => stepWith c s

/-- Steps until HALTED; `none` when the fuel is spent first. The engine itself has no bound (R76); the fuel is the model's (log 19). -/
def State.stepsToHalt (c : Config) (fuel : Nat) (s : State) : Option (Host.Outcome State Fault Refusal) :=
  match s.run, fuel with
  | .halted, _ => some (.next s)
  | .running, 0 => none
  | .running, n + 1 =>
    match stepWith c s with
    | .next t => State.stepsToHalt c n t
    | .fault r => some (.fault r)
    | .refused r => some (.refused r)

/-- `run_to_halt` (R76, R77): allowed when RUNNING only. -/
def State.runToHalt (c : Config) (fuel : Nat) (s : State) : Option (Host.Outcome State Fault Refusal) :=
  match s.run with
  | .halted => some (.fault .notRunning)
  | .running => s.stepsToHalt c fuel

/-- What the trace port presents once per step (R124). -/
structure TraceLine where
  pc : Nat
  op : Byte
  a : Byte
  b : Byte
  x : RegisterFile
  deriving DecidableEq, Repr

/-- The trace port: sampled after the fetch and before the handler runs; a step whose fetch fails, and a HALTED engine, give no
line (R124, D17). -/
def State.trace (s : State) : Option TraceLine :=
  match s.run, s.fetch with
  | .running, .ok (op, a, b) => some ⟨s.pc, op, a, b, s.x⟩
  | _, _ => none

end Sys2Proof.Machine
end

