-- ==== Sys2Proof/Safety.lean ====
section
/-! DEFINITION. The terms the statements use: what stays unchanged, what a good state is, and when a diagnostic is exact. -/

namespace Sys2Proof.Machine

/-! ## Frames -/

/-- Every byte of memory reads as before. -/
def SameCells (s t : State) : Prop := ∀ a : Nat, t.mem.read a = s.mem.read a

/-- Every byte of memory outside the one at `addr` reads as before. -/
def SameCellsBut (addr : Nat) (s t : State) : Prop := ∀ a : Nat, a ≠ addr → t.mem.read a = s.mem.read a

/-- Every register outside `ds` is unchanged. -/
def SameRegsBut (ds : List Reg) (s t : State) : Prop := ∀ r : Reg, r ∉ ds → t.reg r = s.reg r

/-- The engine state and the cause of a halt are unchanged. -/
def SameEngine (s t : State) : Prop := t.run = s.run ∧ t.err = s.err

/-- Flag, output and engine state are unchanged. -/
def SameControl (s t : State) : Prop := t.fl = s.fl ∧ t.out = s.out ∧ SameEngine s t

/-- The frame of an instruction that writes register `ra` and advances past its `n` bytes. -/
def WritesOnlyReg (ra : Reg) (n : Nat) (s t : State) : Prop :=
  t.pc = s.pc + n ∧ SameRegsBut [ra] s t ∧ SameCells s t ∧ SameControl s t

/-! ## Instructions in memory -/

/-- The three cells at `pc` decode to `i` (R50, R72), and the fetch reaches them (R71). -/
def InstrAt (c : Config) (s : State) (i : Instr) : Prop :=
  s.pc ≤ 253 ∧ decode c (s.mem.read s.pc) (s.mem.read (s.pc + 1)) (s.mem.read (s.pc + 2)) = .ok i

/-- The valid opcode bytes in numeric order, the 14 of R58 that the document gives and the two of R55 when they are dispatched. -/
def validOpcodes (c : Config) : List Byte :=
  [0x01#8, 0x11#8, 0x45#8, 0x46#8, 0x47#8, 0x50#8, 0x54#8, 0x55#8, 0x56#8, 0x82#8, 0xA0#8, 0xA1#8, 0xA2#8, 0xA7#8] ++
    if c.incDecDispatched then [c.opcInc, c.opcDec] else []

/-! ## Good states -/

/-- What holds in every reachable state (R27), as far as the types do not say it: memory is in canonical form with its cells at
0..255, `pc` is in 0..256, and a recorded cause means HALTED. -/
structure Inv (s : State) : Prop where
  mem_wf : s.mem.wf
  pc_le : s.pc ≤ 256
  err_halted : s.err ≠ none → s.run = .halted

/-- A recorded diagnostic names the instruction that could not be fetched or decoded, which `pc` still points at (R110, R117). -/
def DiagnosticExact (c : Config) (s : State) : Prop :=
  match s.err with
  | none => True
  | some (.invalidOpcode op pc) => pc = s.pc ∧ pc ≤ 253 ∧ s.mem.read pc = op ∧ op ∉ validOpcodes c
  | some (.addressOutOfRange addr pc) => addr = 256 ∧ pc = s.pc ∧ 254 ≤ pc ∧ pc ≤ 256
  | some .unsupportedAluOperation => False

/-- Two states that differ at most in which of LESS_THAN and GREATER_THAN the flag holds (R17). -/
def FlagAlike (s t : State) : Prop :=
  t = { s with fl := t.fl } ∧ (t.fl = .equal ↔ s.fl = .equal)

end Sys2Proof.Machine
end

