-- ==== Sys2Proof/Certificates/Slice0/Obligations.lean ====
section
/-! DEFINITION. The statements for the provers. Statements that rest on the spec's own decisions D<n> or on a model choice say so. -/

open Sys2Proof Sys2Proof.Machine

/-! ## Encoding -/

/-- Sanity: words written out from the bit patterns of R54 and R55 decode to the instructions they stand for. -/
def Obligations.WordsOfTheTableDecode : Prop :=
  decodeTableWord 8 0b00000001 = some .hlt ∧
  decodeTableWord 24 0b00101010_11111111_10000010 = some (.ldi 7 42) ∧
  decodeTableWord 24 0b00001001_11111000_10100000 = some (.add 0 1) ∧
  decodeTableWord 16 0b00000111_01000101 = some (.push 7) ∧
  decodeTableWord 16 0b00000001_01010000 = some (.call 1) ∧
  decodeTableWord 8 0b00010001 = some .ret ∧
  decodeTableWord 8 0b00000000 = none

/-- R57, R58: under any parameters a byte is an opcode exactly when it is listed, every other is rejected by name, and with legal
parameters 240 of the 256 byte values are invalid (242 if INC and DEC are not dispatched). -/
def Obligations.ExactlyTheListedOpcodesDecode : Prop :=
  (∀ (c : Config) (op a b : Byte),
    (op ∈ validOpcodes c → ∃ i, decode c op a b = .ok i) ∧
    (op ∉ validOpcodes c → decode c op a b = .error (.invalidOpcode op))) ∧
  ∀ c : Config, c.wf = true →
    ((List.range 256).filter fun n => decide (BitVec.ofNat 8 n ∉ validOpcodes c)).length =
      if c.incDecDispatched then 240 else 242

/-- Decode after encode: for legal parameters every well-formed instruction is read back, with every operand at every value and
whatever bytes follow, and exactly its own bytes are taken (R50, R51). -/
def Obligations.DecodeOfEncodeIsIdentity : Prop :=
  ∀ (c : Config) (i : Instr) (rest : List Byte), c.wf = true → i.wf c = true →
    decodeBytes c (encode c i ++ rest) = .ok (i, rest)

/-- Encode after decode: what three bytes decode to is well-formed, and its encoding is those bytes up to its length with the ignored
bits 7..3 of register operand bytes cleared and the immediate of LDI whole (R51, R53, R62). -/
def Obligations.EncodeOfDecodeIsCanonical : Prop :=
  ∀ (c : Config) (op a b : Byte) (i : Instr), c.wf = true → decode c op a b = .ok i →
    i.wf c = true ∧
    encode c i = [op, a &&& 7#8, if op = 0x82#8 then b else b &&& 7#8].take i.length

/-- R12, R51: bits 7..3 of a register operand byte change nothing; the second byte of LDI is no register operand. -/
def Obligations.IgnoredOperandBitsChangeNothing : Prop :=
  ∀ (c : Config) (op a a' b b' : Byte), a &&& 7#8 = a' &&& 7#8 → b &&& 7#8 = b' &&& 7#8 → (op = 0x82#8 → b = b') →
    decode c op a b = decode c op a' b'

/-- R56, of the default parameters: bits 7..6 are the operand count, bit 5 marks the ALU, bit 4 the handlers that set `pc`, the low
four bits tell one class apart, and a byte that only fits the pattern is no opcode. -/
def Obligations.OpcodeBitsShowTheClass : Prop :=
  (∀ h : Handler,
    (h.opcode Config.standard).toNat / 64 = h.operandCount ∧
    (h.opcode Config.standard).getLsbD 5 = h.isAlu ∧
    (h.opcode Config.standard).getLsbD 4 = h.setsPc) ∧
  (∀ h h' : Handler, h.operandCount = h'.operandCount → h.isAlu = h'.isAlu → h.setsPc = h'.setsPc →
    (h.opcode Config.standard).toNat % 16 = (h'.opcode Config.standard).toNat % 16 → h = h') ∧
  ∀ a b : Byte, decode Config.standard 0b10101000#8 a b = .error (.invalidOpcode 0b10101000#8)

/-! ## The step -/

/-- R70, R72, R73: a RUNNING step whose three cells decode to `i` is the meaning of `i`, which includes the engine's advance of `pc`. -/
def Obligations.StepRunsTheDecodedInstruction : Prop :=
  (∀ (c : Config) (s : State) (i : Instr), s.run = .running → InstrAt c s i → stepWith c s = exec i s) ∧
  ∀ (s : State) (i : Instr), s.run = .running → InstrAt Config.standard s i → step s = exec i s

/-- A RUNNING step with the encoding of a well-formed instruction in memory at `pc` runs that instruction, whatever the cells after it
hold (R50, R52, R73). -/
def Obligations.StepRunsTheEncodedInstruction : Prop :=
  ∀ (c : Config) (s : State) (i : Instr), c.wf = true → i.wf c = true → s.run = .running → s.pc ≤ 253 →
    (∀ k < (encode c i).length, s.mem.read (s.pc + k) = (encode c i).getD k 0#8) →
    stepWith c s = exec i s

/-- The host's placing of a word (log 11): after `withFetchWord` the very next step runs the instruction the decoder reads from it. -/
def Obligations.PlacedWordIsTheNextInstruction : Prop :=
  ∀ (s : State) (nbits w : Nat) (i : Instr), s.mem.wf → s.run = .running → s.pc ≤ 253 →
    decodeTableWord nbits w = some i →
    step (s.withFetchWord nbits w) = exec i (s.withFetchWord nbits w)

/-- R71, R116, R117 (decisions D1, D2, D3, D14): a step with `pc` in 254..256 raises AddressOutOfRange(256) whatever the cells hold, and changes
nothing but `run` and `err`. -/
def Obligations.FetchPastTheTopRaises : Prop :=
  ∀ (c : Config) (s : State), s.run = .running → 254 ≤ s.pc → s.pc ≤ 256 →
    stepWith c s = .next { s with run := .halted, err := some (.addressOutOfRange 256 s.pc) }

/-- R57, R72, R111, R117 (decisions D3, D14): an opcode byte that is not in the table raises InvalidOpcode with the byte and `pc`, and changes
nothing but `run` and `err`. -/
def Obligations.UnknownOpcodeRaises : Prop :=
  ∀ (c : Config) (s : State), s.run = .running → s.pc ≤ 253 → s.mem.read s.pc ∉ validOpcodes c →
    stepWith c s = .next { s with run := .halted, err := some (.invalidOpcode (s.mem.read s.pc) s.pc) }

/-- R70, R78: in HALTED no state changes, however many steps are asked. That the engine's step answers the same state is the model's
choice (log 9); the host operation `hostStep` is not defined there and faults by name. -/
def Obligations.HaltedIsFinal : Prop :=
  ∀ s : State, s.run = .halted →
    (∀ c, stepWith c s = .next s) ∧ (∀ k, Host.Core.run Sys2Proof.core k s = .next s) ∧
    ∀ c, s.hostStep c = .fault .notRunning

/-- Every state has a next state; the engine's step never faults and never refuses. For a RUNNING state R76 and R139 say that there is
one. That a HALTED state has one, itself, is the model's choice (log 9; R70 and R78 define no step there), and that a step which meets
a fatal condition answers a next state and not a fault is the model's choice too (log 15). -/
def Obligations.EveryStateHasANextState : Prop :=
  ∀ (c : Config) (s : State), ∃ t, stepWith c s = .next t

/-- R75, R113: every instruction completes in every state, no handler raises, and only HLT touches `run`. -/
def Obligations.NoHandlerRaises : Prop :=
  ∀ (i : Instr) (s : State), ∃ t, exec i s = .next t ∧ t.err = s.err ∧
    t.run = if i = .hlt then .halted else s.run

/-- R19, R76: a RUNNING engine halts only by executing HLT or by a fatal condition of the fetch or of the dispatch, and in the two
latter cases nothing but `run` and `err` changes (decisions D3, D9, D14; for `pc` above 256 see log 16). The bounds on `pc`, at most
253 for HLT and the dispatch and at least 254 for the fetch, rest on the range-checked pre-fetch without wrap (R71, decisions D1, D2,
logs 4, 5). -/
def Obligations.HaltsOnlyByHltOrFatalCondition : Prop :=
  ∀ (c : Config) (s t : State), s.run = .running → stepWith c s = .next t → t.run = .halted →
    (s.pc ≤ 253 ∧ s.mem.read s.pc = 0x01#8 ∧ t = { s with run := .halted, pc := s.pc + 1 }) ∨
    (s.pc ≤ 253 ∧ s.mem.read s.pc ∉ validOpcodes c ∧
      t = { s with run := .halted, err := some (.invalidOpcode (s.mem.read s.pc) s.pc) }) ∨
    (254 ≤ s.pc ∧ ∃ addr, t = { s with run := .halted, err := some (.addressOutOfRange addr s.pc) })

/-! ## Results, frames and completion of each instruction -/

/-- R81, R82, R83: ADD, SUB and MUL, their encodings, their results modulo 256 with both operands read before the write, and their frame. -/
def Obligations.AddSubMulReduceModulo256 : Prop :=
  (∀ (c : Config) (a b : Byte),
    decode c 0b10100000#8 a b = .ok (.add (regOperand a) (regOperand b)) ∧
    decode c 0b10100001#8 a b = .ok (.sub (regOperand a) (regOperand b)) ∧
    decode c 0b10100010#8 a b = .ok (.mul (regOperand a) (regOperand b))) ∧
  ∀ (ra rb : Reg) (s : State),
    (∃ t, exec (.add ra rb) s = .next t ∧ WritesOnlyReg ra 3 s t ∧
      (t.reg ra).toNat = ((s.reg ra).toNat + (s.reg rb).toNat) % 256) ∧
    (∃ t, exec (.sub ra rb) s = .next t ∧ WritesOnlyReg ra 3 s t ∧
      ((t.reg ra).toNat : Int) = ((s.reg ra).toNat - (s.reg rb).toNat : Int) % 256) ∧
    (∃ t, exec (.mul ra rb) s = .next t ∧ WritesOnlyReg ra 3 s t ∧
      (t.reg ra).toNat = ((s.reg ra).toNat * (s.reg rb).toNat) % 256)

/-- R84, R85: INC and DEC modulo 256. Their opcode bytes are parameters; 0x65 and 0x66 are the spec's general-knowledge defaults (log 3). -/
def Obligations.IncDecReduceModulo256 : Prop :=
  (∀ (c : Config) (a b : Byte), c.wf = true → c.incDecDispatched = true →
    decode c c.opcInc a b = .ok (.inc (regOperand a)) ∧ decode c c.opcDec a b = .ok (.dec (regOperand a))) ∧
  (∀ a b : Byte,
    decode Config.standard 0b01100101#8 a b = .ok (.inc (regOperand a)) ∧
    decode Config.standard 0b01100110#8 a b = .ok (.dec (regOperand a))) ∧
  ∀ (ra : Reg) (s : State),
    (∃ t, exec (.inc ra) s = .next t ∧ WritesOnlyReg ra 2 s t ∧
      (t.reg ra).toNat = ((s.reg ra).toNat + 1) % 256) ∧
    (∃ t, exec (.dec ra) s = .next t ∧ WritesOnlyReg ra 2 s t ∧
      ((t.reg ra).toNat : Int) = ((s.reg ra).toNat - 1 : Int) % 256)

/-- R86: CMP sets the flag from the unsigned comparison, to exactly one value, and writes no register; it is the only instruction that
writes the flag. -/
def Obligations.CmpSetsFlagFromUnsignedOrder : Prop :=
  (∀ (c : Config) (a b : Byte), decode c 0b10100111#8 a b = .ok (.cmp (regOperand a) (regOperand b))) ∧
  (∀ (i : Instr) (s t : State), exec i s = .next t → t.fl ≠ s.fl → ∃ ra rb, i = .cmp ra rb) ∧
  ∀ (ra rb : Reg) (s : State), ∃ t, exec (.cmp ra rb) s = .next t ∧
    (t.fl = .equal ↔ (s.reg ra).toNat = (s.reg rb).toNat) ∧
    (t.fl = .lessThan ↔ (s.reg ra).toNat < (s.reg rb).toNat) ∧
    (t.fl = .greaterThan ↔ (s.reg ra).toNat > (s.reg rb).toNat) ∧
    t.pc = s.pc + 3 ∧ SameRegsBut [] s t ∧ SameCells s t ∧ t.out = s.out ∧ SameEngine s t

/-- R90: LDI writes the whole immediate byte to the register. -/
def Obligations.LdiLoadsTheImmediate : Prop :=
  (∀ (c : Config) (a b : Byte), decode c 0b10000010#8 a b = .ok (.ldi (regOperand a) b)) ∧
  ∀ (ra : Reg) (imm : Byte) (s : State), ∃ t, exec (.ldi ra imm) s = .next t ∧
    t.reg ra = imm ∧ WritesOnlyReg ra 3 s t

/-- R91 (decision D7: the output is a list of bytes): PRN appends the register's byte to `out` and changes nothing else but `pc`. -/
def Obligations.PrnEmitsTheRegister : Prop :=
  (∀ (c : Config) (a b : Byte), decode c 0b01000111#8 a b = .ok (.prn (regOperand a))) ∧
  ∀ (ra : Reg) (s : State), ∃ t, exec (.prn ra) s = .next t ∧
    t.out = s.out ++ [s.reg ra] ∧ t.pc = s.pc + 2 ∧
    SameRegsBut [] s t ∧ SameCells s t ∧ t.fl = s.fl ∧ SameEngine s t

/-- R92: HLT halts the engine and records no cause. The advance of `pc` rests on decision D9. -/
def Obligations.HltStopsTheEngine : Prop :=
  (∀ (c : Config) (a b : Byte), decode c 0b00000001#8 a b = .ok .hlt) ∧
  ∀ s : State, ∃ t, exec .hlt s = .next t ∧
    t.run = .halted ∧ t.err = s.err ∧ t.pc = s.pc + 1 ∧
    SameRegsBut [] s t ∧ SameCells s t ∧ t.fl = s.fl ∧ t.out = s.out

/-- R95, R97: PUSH decrements `sp` modulo 256 and stores the register at the new `sp`. For register 7 the stored byte is the decremented
stack pointer (decision D8, log 7). -/
def Obligations.PushStoresTheRegister : Prop :=
  (∀ (c : Config) (a b : Byte), decode c 0b01000101#8 a b = .ok (.push (regOperand a))) ∧
  ∀ (ra : Reg) (s : State), s.mem.wf → ∃ t, exec (.push ra) s = .next t ∧
    (t.sp.toNat : Int) = (s.sp.toNat - 1 : Int) % 256 ∧
    s.pushAddr = t.sp.toNat ∧
    t.mem.read s.pushAddr = (if ra = 7 then t.sp else s.reg ra) ∧
    SameCellsBut s.pushAddr s t ∧ SameRegsBut [7] s t ∧
    t.pc = s.pc + 2 ∧ SameControl s t

/-- R96, R97: POP loads the register from the cell at `sp` and increments `sp` modulo 256. For register 7 the loaded byte is what is
incremented (decision D8, log 7). -/
def Obligations.PopLoadsTheRegister : Prop :=
  (∀ (c : Config) (a b : Byte), decode c 0b01000110#8 a b = .ok (.pop (regOperand a))) ∧
  ∀ (ra : Reg) (s : State), ∃ t, exec (.pop ra) s = .next t ∧
    (ra ≠ 7 → t.reg ra = s.mem.read s.popAddr ∧ t.sp.toNat = (s.sp.toNat + 1) % 256) ∧
    (ra = 7 → t.sp.toNat = ((s.mem.read s.popAddr).toNat + 1) % 256) ∧
    s.popAddr = s.sp.toNat ∧
    SameCells s t ∧ SameRegsBut [ra, 7] s t ∧
    t.pc = s.pc + 2 ∧ SameControl s t

/-- R101, R97: CALL decrements `sp`, stores the return address `pc + 2` at the new `sp` and jumps to the register's value. For register
7 the target is the decremented stack pointer (decision D8, log 7). -/
def Obligations.CallPushesTheReturnAddress : Prop :=
  (∀ (c : Config) (a b : Byte), decode c 0b01010000#8 a b = .ok (.call (regOperand a))) ∧
  ∀ (ra : Reg) (s : State), s.mem.wf → ∃ t, exec (.call ra) s = .next t ∧
    (t.sp.toNat : Int) = (s.sp.toNat - 1 : Int) % 256 ∧
    s.pushAddr = t.sp.toNat ∧
    (t.mem.read s.pushAddr).toNat = (s.pc + 2) % 256 ∧
    (s.pc ≤ 253 → (t.mem.read s.pushAddr).toNat = s.pc + 2) ∧
    t.pc = (if ra = 7 then t.sp else s.reg ra).toNat ∧
    SameCellsBut s.pushAddr s t ∧ SameRegsBut [7] s t ∧ SameControl s t

/-- R102: RET takes `pc` from the cell at `sp`, zero-extended, and increments `sp` modulo 256. -/
def Obligations.RetPopsTheReturnAddress : Prop :=
  (∀ (c : Config) (a b : Byte), decode c 0b00010001#8 a b = .ok .ret) ∧
  ∀ s : State, ∃ t, exec .ret s = .next t ∧
    t.pc = (s.mem.read s.popAddr).toNat ∧ s.popAddr = s.sp.toNat ∧
    t.sp.toNat = (s.sp.toNat + 1) % 256 ∧
    SameCells s t ∧ SameRegsBut [7] s t ∧ SameControl s t

/-- R103: JMP sets `pc` to the register's value and changes nothing else. -/
def Obligations.JmpGoesToTheRegister : Prop :=
  (∀ (c : Config) (a b : Byte), decode c 0b01010100#8 a b = .ok (.jmp (regOperand a))) ∧
  ∀ (ra : Reg) (s : State), ∃ t, exec (.jmp ra) s = .next t ∧
    t.pc = (s.reg ra).toNat ∧ SameRegsBut [] s t ∧ SameCells s t ∧ SameControl s t

/-- R104, R105: JEQ jumps exactly when the flag is EQUAL and JNE exactly when it is not; otherwise `pc + 2`; nothing else changes. -/
def Obligations.JeqJneBranchOnEqual : Prop :=
  (∀ (c : Config) (a b : Byte),
    decode c 0b01010101#8 a b = .ok (.jeq (regOperand a)) ∧ decode c 0b01010110#8 a b = .ok (.jne (regOperand a))) ∧
  ∀ (ra : Reg) (s : State),
    (∃ t, exec (.jeq ra) s = .next t ∧
      (s.fl = .equal → t.pc = (s.reg ra).toNat) ∧ (s.fl ≠ .equal → t.pc = s.pc + 2) ∧
      SameRegsBut [] s t ∧ SameCells s t ∧ SameControl s t) ∧
    (∃ t, exec (.jne ra) s = .next t ∧
      (s.fl ≠ .equal → t.pc = (s.reg ra).toNat) ∧ (s.fl = .equal → t.pc = s.pc + 2) ∧
      SameRegsBut [] s t ∧ SameCells s t ∧ SameControl s t)

/-! ## Rules of the whole machine -/

/-- R10, R17: the flag changes only in a step that executes CMP. That such a step has `pc` of 253 or less rests on the range-checked
pre-fetch without wrap (R71, decisions D1, D2, logs 4, 5). -/
def Obligations.OnlyCmpChangesTheFlag : Prop :=
  ∀ (c : Config) (s t : State), stepWith c s = .next t → t.fl ≠ s.fl →
    s.run = .running ∧ s.pc ≤ 253 ∧ s.mem.read s.pc = 0xA7#8

/-- R10, R32, R33: a step changes at most the cell at the decremented stack pointer, and only when it executes PUSH or CALL. That such a
step has `pc` of 253 or less rests on the range-checked pre-fetch without wrap (R71, decisions D1, D2, logs 4, 5). -/
def Obligations.OnlyPushAndCallWriteMemory : Prop :=
  ∀ (c : Config) (s t : State) (a : Nat), s.mem.wf → stepWith c s = .next t → t.mem.read a ≠ s.mem.read a →
    s.run = .running ∧ s.pc ≤ 253 ∧ (s.mem.read s.pc = 0x45#8 ∨ s.mem.read s.pc = 0x50#8) ∧ a = s.pushAddr

/-- R10, R24, R93 (decision D7): the output changes only in a step that executes PRN, by one byte at its end. That such a
step has `pc` of 253 or less rests on the range-checked pre-fetch without wrap (R71, decisions D1, D2, logs 4, 5). -/
def Obligations.OnlyPrnExtendsTheOutput : Prop :=
  ∀ (c : Config) (s t : State), stepWith c s = .next t → t.out ≠ s.out →
    s.run = .running ∧ s.pc ≤ 253 ∧ s.mem.read s.pc = 0x47#8 ∧
      t.out = s.out ++ [s.reg (regOperand (s.mem.read (s.pc + 1)))]

/-- R10's table, the writers of `x`: a step changes a register only as the destination of LDI, ADD, SUB, MUL, INC, DEC or POP, or
register 7 by PUSH, POP, CALL or RET. That such a step has `pc` of 253 or less rests on the range-checked pre-fetch without wrap (R71,
decisions D1, D2, logs 4, 5). -/
def Obligations.RegisterWritersAreTheListedOnes : Prop :=
  ∀ (c : Config) (s t : State) (r : Reg), stepWith c s = .next t → t.reg r ≠ s.reg r →
    s.run = .running ∧ s.pc ≤ 253 ∧
    ((r = regOperand (s.mem.read (s.pc + 1)) ∧
        (s.mem.read s.pc ∈ [0x82#8, 0xA0#8, 0xA1#8, 0xA2#8, 0x46#8] ∨
          (c.incDecDispatched = true ∧ (s.mem.read s.pc = c.opcInc ∨ s.mem.read s.pc = c.opcDec)))) ∨
      (r = 7 ∧ s.mem.read s.pc ∈ [0x45#8, 0x46#8, 0x50#8, 0x11#8]))

/-- R74 (decisions D1, D9): after a completed step `pc` is advanced by one more than the operand count, without wrap, unless the
handler is JMP, JEQ, JNE, CALL or RET; those five leave it in 0..255. -/
def Obligations.PcAdvancesByTheLength : Prop :=
  ∀ (c : Config) (s t : State) (i : Instr), s.run = .running → InstrAt c s i → stepWith c s = .next t →
    (i.handler.setsPc = false → t.pc = s.pc + i.length) ∧ (i.handler.setsPc = true → t.pc ≤ 255)

/-- R88, R113 (decision D20): no step records UnsupportedAluOperation. -/
def Obligations.UnsupportedAluOperationIsNeverRaised : Prop :=
  ∀ (c : Config) (s t : State), stepWith c s = .next t → t.err = some .unsupportedAluOperation →
    s.err = some .unsupportedAluOperation

/-! ## Invariants -/

/-- R27: every step, under any parameters, keeps the invariant. -/
def Obligations.EveryStepKeepsTheInvariant : Prop :=
  (∀ s t : State, Inv s → step s = .next t → Inv t) ∧
  ∀ (c : Config) (s t : State), Inv s → stepWith c s = .next t → Inv t

/-- R110, R111, R112, R117 (decisions D2, D3, D14): from every good state, a step keeps the diagnostic exact, the address of
AddressOutOfRange being 256. -/
def Obligations.EveryStepKeepsTheDiagnosticExact : Prop :=
  ∀ (c : Config) (s t : State), Inv s → DiagnosticExact c s → stepWith c s = .next t → DiagnosticExact c t

/-- The two invariants hold after reset, under any parameters (R26, R27). -/
def Obligations.ResetMeetsTheInvariants : Prop :=
  (∀ c : Config, Inv (State.resetWith c) ∧ DiagnosticExact c (State.resetWith c)) ∧ Inv State.reset

/-- R24: over any number of steps the output only grows at its end (decision D7). -/
def Obligations.RunsOnlyAppendToTheOutput : Prop :=
  ∀ (k : Nat) (s t : State), Host.Core.run Sys2Proof.core k s = .next t → ∃ more, t.out = s.out ++ more

/-- R17: "no instruction distinguishes LESS_THAN from GREATER_THAN, so a program can observe only whether `fl` is EQUAL": two states
that differ at most in that stay so over any number of steps, so `out`, registers, memory, `pc`, `run` and `err` agree for ever. -/
def Obligations.LessAndGreaterAreIndistinguishable : Prop :=
  ∀ (k : Nat) (s s' : State), FlagAlike s s' →
    ∃ t t', Host.Core.run Sys2Proof.core k s = .next t ∧ Host.Core.run Sys2Proof.core k s' = .next t' ∧ FlagAlike t t'

/-- R55, D6: two machines whose parameters differ take the same step wherever the opcode byte is none of their INC and DEC bytes. -/
def Obligations.ParametersMatterOnlyAtIncAndDec : Prop :=
  ∀ (c c' : Config) (s : State),
    s.mem.read s.pc ∉ [c.opcInc, c.opcDec, c'.opcInc, c'.opcDec] → stepWith c s = stepWith c' s

/-! ## Sequences -/

/-- R97: PUSH(r) then POP(r') leaves SP unchanged and sets r' to the original r, for r and r' in 0..6; no other register changes. -/
def Obligations.PushThenPopMovesTheRegister : Prop :=
  ∀ (r r' : Reg) (s : State), s.mem.wf → r ≠ 7 → r' ≠ 7 →
    ∃ t u, exec (.push r) s = .next t ∧ exec (.pop r') t = .next u ∧
      u.sp = s.sp ∧ u.reg r' = s.reg r ∧ SameRegsBut [r'] s u ∧ u.pc = s.pc + 4

/-- R106: a CALL whose next executed instruction is a RET comes back to the instruction after the CALL with the old SP, whatever the
register held, register 7 included. -/
def Obligations.CallThenRetComesBack : Prop :=
  ∀ (c : Config) (ra : Reg) (s t : State), s.mem.wf → s.run = .running → InstrAt c s (.call ra) →
    stepWith c s = .next t → InstrAt c t .ret →
    ∃ u, stepWith c t = .next u ∧ u.pc = s.pc + 2 ∧ u.sp = s.sp ∧ SameRegsBut [] s u

/-- R43: a store is seen by the very next fetch: a PUSH onto the cell after itself makes the pushed byte the next opcode. -/
def Obligations.StoreIsSeenByTheNextFetch : Prop :=
  ∀ (c : Config) (ra : Reg) (s t : State), s.mem.wf → s.run = .running → InstrAt c s (.push ra) → ra ≠ 7 →
    s.pushAddr = s.pc + 2 → s.pc + 2 ≤ 253 → stepWith c s = .next t →
    t.pc = s.pc + 2 ∧ t.fetch = .ok (s.reg ra, s.mem.read (s.pc + 3), s.mem.read (s.pc + 4))

/-- R103, R76: a JMP to its own address loops for ever; there is no timeout. -/
def Obligations.JmpToItselfLoopsForEver : Prop :=
  ∀ (ra : Reg) (s : State) (k : Nat), s.run = .running → InstrAt Config.standard s (.jmp ra) →
    (s.reg ra).toNat = s.pc → Host.Core.run Sys2Proof.core k s = .next s

/-! ## Memory, registers, reset, load, run -/

/-- R31, R32, R36: a write in 0..255 stores `v mod 256` in one cell and nothing else, and a read of that cell returns it; outside
0..255 both report the address instead of wrapping. That the report carries `pc` beside the address is the recorded data of R110
(decision D14, log 6). -/
def Obligations.MemoryAccessesAreRangeChecked : Prop :=
  ∀ (s : State) (a v : Nat), s.mem.wf →
    (a ≤ 255 → ∃ t, s.memWrite a v = .ok t ∧ t.memRead a = .ok (BitVec.ofNat 8 (v % 256)) ∧
      SameCellsBut a s t ∧ t = { s with mem := t.mem } ∧ t.mem.wf) ∧
    (255 < a → s.memRead a = .error (.addressOutOfRange a s.pc) ∧
      s.memWrite a v = .error (.addressOutOfRange a s.pc))

/-- R13, R12: `set(i, v)` then `get(i mod 8)` returns `v mod 256`, for all natural `i` and `v`, and no other register changes. -/
def Obligations.RegisterFileMasksIndexAndValue : Prop :=
  ∀ (x : RegisterFile) (i v j : Nat),
    ((RegisterFile.setAt x i v).getAt (i % 8)).toNat = v % 256 ∧
    (j % 8 = i % 8 → ((RegisterFile.setAt x i v).getAt j).toNat = v % 256) ∧
    (j % 8 ≠ i % 8 → (RegisterFile.setAt x i v).getAt j = x.getAt j)

/-- R26 (decisions D3, D4, D5, D7, D10): the state after reset, for every FLAG_RESET and SP_RESET; the default SP_RESET is 244. -/
def Obligations.ResetGivesTheStatedValues : Prop :=
  (∀ c : Config,
    (∀ a, (State.resetWith c).mem.read a = 0#8) ∧
    (∀ r : Reg, (State.resetWith c).reg r = if r = 7 then c.spReset else 0#8) ∧
    (State.resetWith c).pc = 0 ∧ (State.resetWith c).fl = c.flagReset ∧ (State.resetWith c).run = .running ∧
    (State.resetWith c).err = none ∧ (State.resetWith c).out = []) ∧
  State.reset = State.resetWith Config.standard ∧ State.reset.sp = 244#8

/-- R130, R132 (decision D11): reset and load place byte k of the image in cell k, leave the cells after it 0 and everything else as
reset left it; an image of more than 256 bytes is refused. -/
def Obligations.LoadPlacesTheImage : Prop :=
  ∀ (c : Config) (image : List Byte),
    (image.length ≤ 256 → ∃ t, State.init c image = .next t ∧
      (∀ k, t.mem.read k = image.getD k 0#8) ∧
      t = { State.resetWith c with mem := t.mem } ∧ Inv t) ∧
    (256 < image.length → State.init c image = .refused (.imageTooLong image.length))

/-- R76, R77, R138: what `runToHalt` of a RUNNING engine gives is a HALTED state the engine reaches by its steps, and more fuel does not
change it (the fuel is the model's, log 19). -/
def Obligations.RunToHaltGivesTheFinalState : Prop :=
  ∀ (fuel : Nat) (s : State) (o : Host.Outcome State Fault Refusal), s.run = .running →
    s.runToHalt Config.standard fuel = some o →
    ∃ t, o = .next t ∧ t.run = .halted ∧ (∃ k ≤ fuel, Host.Core.run Sys2Proof.core k s = .next t) ∧
      ∀ more, s.runToHalt Config.standard (fuel + more) = some o
end

