-- ==== Sys2Proof/Laws/Decode.lean ====
section
/-! SUPPORT. The decoder's and the encoder's small lemmas. -/

namespace Sys2Proof

/-- The canonical operand byte of a register selects it. -/
@[simp] theorem regOperand_regByte (r : Reg) : regOperand (regByte r) = r := by
  revert r; decide

/-- The canonical operand byte of the register a byte selects is the byte with bits 7 to 3 cleared. -/
theorem regByte_regOperand (a : Byte) : regByte (regOperand a) = a &&& 7#8 := by
  revert a; decide

/-- Bits 7 to 3 of a register operand byte do not matter (R12). -/
theorem regOperand_eq_iff (a b : Byte) : regOperand a = regOperand b ↔ a &&& 7#8 = b &&& 7#8 := by
  rw [← regByte_regOperand, ← regByte_regOperand]
  exact ⟨fun h => h ▸ rfl, fun h => by simpa using congrArg regOperand h⟩

/-- A handler makes an instruction of its own. -/
@[simp] theorem Handler.instr_handler (h : Handler) (a b : Byte) : (h.instr a b).handler = h := by
  cases h <;> rfl

/-- An instruction has as many operand bytes as its handler declares. -/
@[simp] theorem Instr.operandBytes_length (i : Instr) : i.operandBytes.length = i.handler.operandCount := by
  cases i <;> rfl

/-- A handler's instruction, from its own operand bytes and whatever follows them (R73). -/
theorem Instr.instr_operandBytes (i : Instr) (rest : List Byte) :
    i.handler.instr ((i.operandBytes ++ rest).getD 0 0#8) ((i.operandBytes ++ rest).getD 1 0#8) = i := by
  cases i <;> simp [Instr.handler, Instr.operandBytes, Handler.instr]

/-- A handler the dispatcher has under the parameters `c`. -/
def Handler.dispatched (c : Config) : Handler → Bool
  | .inc | .dec => c.incDecDispatched
  | _ => true

theorem Instr.wf_eq_dispatched (c : Config) (i : Instr) : i.wf c = i.handler.dispatched c := by
  cases i <;> rfl

/-- The encoder's opcode column and the decoder's rows are one table. -/
theorem mem_opcodeTable (c : Config) (op : Byte) (h : Handler) :
    (op, h) ∈ opcodeTable c ↔ op = h.opcode c ∧ h.dispatched c = true := by
  unfold opcodeTable incDecRows documentedRows
  by_cases hd : c.incDecDispatched = true <;> cases h <;>
    simp [Handler.opcode, Handler.dispatched, hd]

/-- `find?` by key in a list with distinct keys finds exactly the pairs of the list. -/
theorem find_key_iff {α β : Type} [DecidableEq α] (l : List (α × β)) (hl : (l.map Prod.fst).Nodup) (k : α) (v : β) :
    (l.find? fun r => r.1 == k).map Prod.snd = some v ↔ (k, v) ∈ l := by
  induction l with
  | nil => simp
  | cons r rest ih =>
    simp only [List.map_cons, List.nodup_cons] at hl
    by_cases hk : r.1 = k
    · have : (k, v) ∉ rest := fun hm => hl.1 (hk ▸ List.mem_map_of_mem (f := Prod.fst) hm)
      simp [List.find?, hk, this, Prod.ext_iff, eq_comm]
    · rw [List.find?_cons_of_neg (by simpa using hk), ih hl.2]
      simp [Prod.ext_iff, Ne.symm hk]

/-- What the dispatcher finds (R72), for legal parameters. -/
theorem dispatch_eq_some_iff {c : Config} (hc : c.wf = true) (op : Byte) (h : Handler) :
    dispatch c op = some h ↔ op = h.opcode c ∧ h.dispatched c = true := by
  rw [← mem_opcodeTable]
  exact find_key_iff _ (by simpa [Config.wf] using hc) op h

/-- A documented opcode byte finds its handler whatever the parameters (R54). -/
theorem dispatch_documented (c : Config) {op : Byte} {h : Handler}
    (hd : (documentedRows.find? fun row => row.1 == op).map Prod.snd = some h) : dispatch c op = some h := by
  unfold dispatch opcodeTable
  rw [List.find?_append]
  cases hf : documentedRows.find? fun row => row.1 == op with
  | none => simp [hf] at hd
  | some r => simpa [hf] using hd

end Sys2Proof
end

