-- ==== Sys2Proof/Laws/State.lean ====
section
/-! SUPPORT. One lemma per field per update of State, and what each update does to a register read. -/

namespace Sys2Proof.Machine

variable (s : State)

/-! ### setMem -/

@[simp] theorem State.setMem_mem (m : Memory) : (s.setMem m).mem = m := rfl
@[simp] theorem State.setMem_x (m : Memory) : (s.setMem m).x = s.x := rfl
@[simp] theorem State.setMem_pc (m : Memory) : (s.setMem m).pc = s.pc := rfl
@[simp] theorem State.setMem_fl (m : Memory) : (s.setMem m).fl = s.fl := rfl
@[simp] theorem State.setMem_run (m : Memory) : (s.setMem m).run = s.run := rfl
@[simp] theorem State.setMem_err (m : Memory) : (s.setMem m).err = s.err := rfl
@[simp] theorem State.setMem_out (m : Memory) : (s.setMem m).out = s.out := rfl
@[simp] theorem State.setMem_reg (m : Memory) (r' : Reg) : (s.setMem m).reg r' = s.reg r' := rfl
@[simp] theorem State.setMem_sp (m : Memory) : (s.setMem m).sp = s.sp := rfl

/-! ### writeReg -/

@[simp] theorem State.writeReg_mem (r : Reg) (v : Int) : (s.writeReg r v).mem = s.mem := rfl
@[simp] theorem State.writeReg_x (r : Reg) (v : Int) : (s.writeReg r v).x = RegisterFile.setAt s.x r.val v := rfl
@[simp] theorem State.writeReg_pc (r : Reg) (v : Int) : (s.writeReg r v).pc = s.pc := rfl
@[simp] theorem State.writeReg_fl (r : Reg) (v : Int) : (s.writeReg r v).fl = s.fl := rfl
@[simp] theorem State.writeReg_run (r : Reg) (v : Int) : (s.writeReg r v).run = s.run := rfl
@[simp] theorem State.writeReg_err (r : Reg) (v : Int) : (s.writeReg r v).err = s.err := rfl
@[simp] theorem State.writeReg_out (r : Reg) (v : Int) : (s.writeReg r v).out = s.out := rfl

/-! ### setPc -/

@[simp] theorem State.setPc_mem (n : Nat) : (s.setPc n).mem = s.mem := rfl
@[simp] theorem State.setPc_x (n : Nat) : (s.setPc n).x = s.x := rfl
@[simp] theorem State.setPc_pc (n : Nat) : (s.setPc n).pc = n := rfl
@[simp] theorem State.setPc_fl (n : Nat) : (s.setPc n).fl = s.fl := rfl
@[simp] theorem State.setPc_run (n : Nat) : (s.setPc n).run = s.run := rfl
@[simp] theorem State.setPc_err (n : Nat) : (s.setPc n).err = s.err := rfl
@[simp] theorem State.setPc_out (n : Nat) : (s.setPc n).out = s.out := rfl
@[simp] theorem State.setPc_reg (n : Nat) (r' : Reg) : (s.setPc n).reg r' = s.reg r' := rfl
@[simp] theorem State.setPc_sp (n : Nat) : (s.setPc n).sp = s.sp := rfl

/-! ### advance -/

@[simp] theorem State.advance_mem (n : Nat) : (s.advance n).mem = s.mem := rfl
@[simp] theorem State.advance_x (n : Nat) : (s.advance n).x = s.x := rfl
@[simp] theorem State.advance_pc (n : Nat) : (s.advance n).pc = s.pc + 1 + n := rfl
@[simp] theorem State.advance_fl (n : Nat) : (s.advance n).fl = s.fl := rfl
@[simp] theorem State.advance_run (n : Nat) : (s.advance n).run = s.run := rfl
@[simp] theorem State.advance_err (n : Nat) : (s.advance n).err = s.err := rfl
@[simp] theorem State.advance_out (n : Nat) : (s.advance n).out = s.out := rfl
@[simp] theorem State.advance_reg (n : Nat) (r' : Reg) : (s.advance n).reg r' = s.reg r' := rfl
@[simp] theorem State.advance_sp (n : Nat) : (s.advance n).sp = s.sp := rfl

/-! ### setFlag -/

@[simp] theorem State.setFlag_mem (f : CompareFlag) : (s.setFlag f).mem = s.mem := rfl
@[simp] theorem State.setFlag_x (f : CompareFlag) : (s.setFlag f).x = s.x := rfl
@[simp] theorem State.setFlag_pc (f : CompareFlag) : (s.setFlag f).pc = s.pc := rfl
@[simp] theorem State.setFlag_fl (f : CompareFlag) : (s.setFlag f).fl = f := rfl
@[simp] theorem State.setFlag_run (f : CompareFlag) : (s.setFlag f).run = s.run := rfl
@[simp] theorem State.setFlag_err (f : CompareFlag) : (s.setFlag f).err = s.err := rfl
@[simp] theorem State.setFlag_out (f : CompareFlag) : (s.setFlag f).out = s.out := rfl
@[simp] theorem State.setFlag_reg (f : CompareFlag) (r' : Reg) : (s.setFlag f).reg r' = s.reg r' := rfl
@[simp] theorem State.setFlag_sp (f : CompareFlag) : (s.setFlag f).sp = s.sp := rfl

/-! ### emit -/

@[simp] theorem State.emit_mem (v : Byte) : (s.emit v).mem = s.mem := rfl
@[simp] theorem State.emit_x (v : Byte) : (s.emit v).x = s.x := rfl
@[simp] theorem State.emit_pc (v : Byte) : (s.emit v).pc = s.pc := rfl
@[simp] theorem State.emit_fl (v : Byte) : (s.emit v).fl = s.fl := rfl
@[simp] theorem State.emit_run (v : Byte) : (s.emit v).run = s.run := rfl
@[simp] theorem State.emit_err (v : Byte) : (s.emit v).err = s.err := rfl
@[simp] theorem State.emit_out (v : Byte) : (s.emit v).out = s.out ++ [v] := rfl
@[simp] theorem State.emit_reg (v : Byte) (r' : Reg) : (s.emit v).reg r' = s.reg r' := rfl
@[simp] theorem State.emit_sp (v : Byte) : (s.emit v).sp = s.sp := rfl

/-! ### halt -/

@[simp] theorem State.halt_mem : s.halt.mem = s.mem := rfl
@[simp] theorem State.halt_x : s.halt.x = s.x := rfl
@[simp] theorem State.halt_pc : s.halt.pc = s.pc := rfl
@[simp] theorem State.halt_fl : s.halt.fl = s.fl := rfl
@[simp] theorem State.halt_run : s.halt.run = .halted := rfl
@[simp] theorem State.halt_err : s.halt.err = s.err := rfl
@[simp] theorem State.halt_out : s.halt.out = s.out := rfl
@[simp] theorem State.halt_reg (r' : Reg) : s.halt.reg r' = s.reg r' := rfl
@[simp] theorem State.halt_sp : s.halt.sp = s.sp := rfl

/-! ### raise -/

@[simp] theorem State.raise_mem (e : FatalCondition) : (s.raise e).mem = s.mem := rfl
@[simp] theorem State.raise_x (e : FatalCondition) : (s.raise e).x = s.x := rfl
@[simp] theorem State.raise_pc (e : FatalCondition) : (s.raise e).pc = s.pc := rfl
@[simp] theorem State.raise_fl (e : FatalCondition) : (s.raise e).fl = s.fl := rfl
@[simp] theorem State.raise_run (e : FatalCondition) : (s.raise e).run = .halted := rfl
@[simp] theorem State.raise_err (e : FatalCondition) : (s.raise e).err = some e := rfl
@[simp] theorem State.raise_out (e : FatalCondition) : (s.raise e).out = s.out := rfl
@[simp] theorem State.raise_reg (e : FatalCondition) (r' : Reg) : (s.raise e).reg r' = s.reg r' := rfl
@[simp] theorem State.raise_sp (e : FatalCondition) : (s.raise e).sp = s.sp := rfl

/-! ### decSp -/

@[simp] theorem State.decSp_mem : s.decSp.mem = s.mem := rfl
@[simp] theorem State.decSp_pc : s.decSp.pc = s.pc := rfl
@[simp] theorem State.decSp_fl : s.decSp.fl = s.fl := rfl
@[simp] theorem State.decSp_run : s.decSp.run = s.run := rfl
@[simp] theorem State.decSp_err : s.decSp.err = s.err := rfl
@[simp] theorem State.decSp_out : s.decSp.out = s.out := rfl

/-! ### incSp -/

@[simp] theorem State.incSp_mem : s.incSp.mem = s.mem := rfl
@[simp] theorem State.incSp_pc : s.incSp.pc = s.pc := rfl
@[simp] theorem State.incSp_fl : s.incSp.fl = s.fl := rfl
@[simp] theorem State.incSp_run : s.incSp.run = s.run := rfl
@[simp] theorem State.incSp_err : s.incSp.err = s.err := rfl
@[simp] theorem State.incSp_out : s.incSp.out = s.out := rfl

/-! ### reset -/

variable (c : Config)

@[simp] theorem State.resetWith_mem : (State.resetWith c).mem = [] := rfl
@[simp] theorem State.resetWith_pc : (State.resetWith c).pc = 0 := rfl
@[simp] theorem State.resetWith_fl : (State.resetWith c).fl = c.flagReset := rfl
@[simp] theorem State.resetWith_run : (State.resetWith c).run = .running := rfl
@[simp] theorem State.resetWith_err : (State.resetWith c).err = none := rfl
@[simp] theorem State.resetWith_out : (State.resetWith c).out = [] := rfl

end Sys2Proof.Machine
end

