-- ==== Sys2Proof/Laws/Ops.lean ====
section
/-! SUPPORT. What each shared operation over memory, registers and the stack can do, said once. -/

namespace Sys2Proof.Machine

/-! ## Memory -/

/-- No listed cell lies at or below `a`. -/
theorem Memory.read_of_lt (m : Memory) (a : Nat) (h : ∀ c ∈ m, a < c.1) : m.read a = Memory.unlisted := by
  cases m with
  | nil => rfl
  | cons c rest =>
    have hc := h c (by simp)
    induction rest generalizing c with
    | nil => simp [Memory.read, Nat.ne_of_gt hc]
    | cons d rest ih =>
      have hd := h d (by simp)
      simp only [Memory.read, Nat.ne_of_gt hc, if_false]
      exact ih d (fun e he => h e (List.mem_cons_of_mem _ he)) hd

/-- The addresses of a memory rise strictly. -/
abbrev Memory.Sorted (m : Memory) : Prop := m.Pairwise (fun c d => c.1 < d.1)

/-- Every cell of a write is the new one or an old one. -/
theorem Memory.mem_write {m : Memory} {a : Nat} {v : Byte} {c : Host.Cell} (h : c ∈ m.write a v) :
    (c = (a, v) ∧ v ≠ Memory.unlisted) ∨ c ∈ m := by
  induction m with
  | nil =>
    simp only [Memory.write] at h
    split at h <;> simp_all
  | cons d rest ih =>
    simp only [Memory.write] at h
    split at h
    · rcases List.mem_cons.1 h with rfl | h
      · simp
      · rcases ih h with h | h
        · exact .inl h
        · exact .inr (List.mem_cons_of_mem _ h)
    · split at h <;> split at h <;> simp_all; tauto

/-- A write keeps the addresses rising. -/
theorem Memory.write_sorted {m : Memory} (a : Nat) (v : Byte) (h : m.Sorted) : (m.write a v).Sorted := by
  induction m with
  | nil =>
    simp only [Memory.write]
    split <;> simp [Memory.Sorted]
  | cons d rest ih =>
    obtain ⟨hd, hr⟩ := List.pairwise_cons.1 h
    simp only [Memory.write]
    split
    · rename_i hlt
      refine List.pairwise_cons.2 ⟨fun c hc => ?_, ih hr⟩
      rcases Memory.mem_write hc with ⟨rfl, -⟩ | hc
      · exact hlt
      · exact hd c hc
    · rename_i hge
      have key : ∀ tail : Memory, tail.Sorted → (∀ c ∈ tail, a < c.1) →
          Memory.Sorted (if v = Memory.unlisted then tail else (a, v) :: tail) := by
        intro tail hs ht
        split
        · exact hs
        · exact List.pairwise_cons.2 ⟨ht, hs⟩
      by_cases heq : d.1 = a
      · simpa only [heq, if_true] using key rest hr fun c hc => heq ▸ hd c hc
      · simp only [heq, if_false]
        refine key (d :: rest) h fun c hc => ?_
        rcases List.mem_cons.1 hc with rfl | hc
        · omega
        · have := hd c hc; omega

/-- A write to one of the 256 cells keeps the canonical form. -/
theorem Memory.write_wf {m : Memory} {a : Nat} (v : Byte) (ha : a < 256) (h : m.wf) : (m.write a v).wf := by
  refine ⟨Memory.write_sorted a v h.1, fun c hc => ?_⟩
  rcases Memory.mem_write hc with ⟨rfl, hv⟩ | hc
  · exact ⟨ha, hv⟩
  · exact h.2 c hc

/-- The whole of what a write does: the cell written reads as the value, every other as before. -/
theorem Memory.read_write {m : Memory} (a : Nat) (v : Byte) (h : m.Sorted) (b : Nat) :
    (m.write a v).read b = if b = a then v else m.read b := by
  induction m with
  | nil =>
    simp only [Memory.write]
    split <;> simp_all [Memory.read, eq_comm]
  | cons d rest ih =>
    obtain ⟨hd, hr⟩ := List.pairwise_cons.1 h
    simp only [Memory.write]
    split
    · rename_i hlt
      simp only [Memory.read, ih hr]
      split_ifs <;> first | rfl | omega
    · rename_i hge
      have key : ∀ tail : Memory, (∀ c ∈ tail, a < c.1) → (b ≠ a → tail.read b = Memory.read (d :: rest) b) →
          Memory.read (if v = Memory.unlisted then tail else (a, v) :: tail) b = if b = a then v else Memory.read (d :: rest) b := by
        intro tail ht hb
        by_cases hba : b = a
        · subst hba
          split
          · rename_i hv
            simp [hv, Memory.read_of_lt tail b ht]
          · simp [Memory.read]
        · split <;> simp [Memory.read, hb hba, Ne.symm hba]
      apply key
      · intro c hc
        split at hc
        · rename_i heq
          exact heq ▸ hd c hc
        · rename_i hne
          rcases List.mem_cons.1 hc with rfl | hc
          · simp only at *; omega
          · have := hd c hc; omega
      · intro hba
        split
        · rename_i heq
          simp [Memory.read, show d.1 ≠ b by omega]
        · rfl

/-- Writing consecutive bytes inside memory keeps the canonical form. -/
theorem Memory.writeBytes_wf {m : Memory} {a : Nat} {bytes : List Byte} (ha : a + bytes.length ≤ 256) (h : m.wf) :
    (m.writeBytes a bytes).wf := by
  induction bytes generalizing m a with
  | nil => exact h
  | cons b rest ih =>
    simp only [List.length_cons] at ha
    exact ih (by omega) (Memory.write_wf b (by omega) h)

/-- The whole of what writing consecutive bytes does. -/
theorem Memory.read_writeBytes {m : Memory} (a : Nat) (bytes : List Byte) (h : m.Sorted) (b : Nat) :
    (m.writeBytes a bytes).read b = if a ≤ b ∧ b < a + bytes.length then bytes.getD (b - a) 0#8 else m.read b := by
  induction bytes generalizing m a with
  | nil => simp [Memory.writeBytes]
  | cons x rest ih =>
    rw [Memory.writeBytes, ih _ (Memory.write_sorted _ _ h), Memory.read_write _ _ h]
    simp only [List.length_cons]
    by_cases hb : b = a
    · subst hb
      simp
    · by_cases hlt : a + 1 ≤ b
      · obtain ⟨d, rfl⟩ := Nat.exists_eq_add_of_le hlt
        simp only [show a + 1 + d - a = d + 1 by omega, show a + 1 + d - (a + 1) = d by omega, List.getD_cons_succ]
        split_ifs <;> first | rfl | omega
      · rw [if_neg (by omega), if_neg hb, if_neg (by omega)]

/-- The whole of what a successful `memWrite` does. -/
theorem State.memWrite_cases {s t : State} {a v : Nat} (h : s.memWrite a v = .ok t) :
    a ≤ 255 ∧ t = s.setMem (s.mem.write a (BitVec.ofNat 8 v)) := by
  unfold State.memWrite at h
  split at h
  · cases h
  · cases h
    exact ⟨by omega, rfl⟩

/-- A successful `memWrite` keeps the canonical form. -/
theorem State.memWrite_wf {s t : State} {a v : Nat} (hw : s.mem.wf) (h : s.memWrite a v = .ok t) : t.mem.wf := by
  obtain ⟨ha, rfl⟩ := State.memWrite_cases h
  exact Memory.write_wf _ (by omega) hw

/-- A byte used as an address is in range, so the read cannot fail (R31). -/
@[simp] theorem State.memRead_byte (s : State) (b : Byte) : s.memRead b.toNat = .ok (s.mem.read b.toNat) := by
  have := b.isLt
  simp [State.memRead, show ¬ b.toNat > 255 by omega]

/-- A byte used as an address is in range, so the write cannot fail (R32). -/
@[simp] theorem State.memWrite_byte (s : State) (b : Byte) (v : Nat) :
    s.memWrite b.toNat v = .ok (s.setMem (s.mem.write b.toNat (BitVec.ofNat 8 v))) := by
  have := b.isLt
  simp [State.memWrite, show ¬ b.toNat > 255 by omega]

/-! ## Registers -/

@[simp] theorem idx_val (r : Reg) : idx r.val = r := by
  simp [idx]

/-- The whole of what a register write does to the register file. -/
theorem RegisterFile.getAt_setAt (x : RegisterFile) (i j : Nat) (v : Int) :
    RegisterFile.getAt (RegisterFile.setAt x i v) j = if idx j = idx i then byteOf v else RegisterFile.getAt x j := by
  unfold RegisterFile.getAt RegisterFile.setAt
  by_cases h : idx j = idx i
  · simp [h, Vector.get_eq_getElem]
  · have : (idx i).val ≠ (idx j).val := fun e => h (Fin.ext e.symm)
    simp [h, Vector.get_eq_getElem, Vector.getElem_set_ne _ _ this]

@[simp] theorem State.writeReg_reg (s : State) (r r' : Reg) (v : Int) :
    (s.writeReg r v).reg r' = if r' = r then byteOf v else s.reg r' := by
  simp [State.reg, RegisterFile.getAt_setAt]

/-- Masking a byte to 8 bits changes nothing. -/
@[simp] theorem byteOf_toNat (b : Byte) : byteOf (b.toNat : Int) = b := by
  simp [byteOf]

/-- `byte(v)` is the least non-negative remainder modulo 256 (R6). -/
theorem byteOf_val (v : Int) : ((byteOf v).toNat : Int) = v % 256 := by
  have h := Int.emod_nonneg v (show (256 : Int) ≠ 0 by decide)
  simp only [byteOf, BitVec.toNat_ofInt]
  have : ((2 ^ 8 : Nat) : Int) = 256 := by norm_num
  rw [this]; omega

theorem State.sp_eq (s : State) : s.sp = s.reg 7 := rfl

/-! ## The stack -/

@[simp] theorem State.decSp_reg (s : State) (r : Reg) :
    s.decSp.reg r = if r = 7 then byteOf (s.sp.toNat - 1) else s.reg r := by
  simp [State.decSp, spIndex]

@[simp] theorem State.incSp_reg (s : State) (r : Reg) :
    s.incSp.reg r = if r = 7 then byteOf (s.sp.toNat + 1) else s.reg r := by
  simp [State.incSp, spIndex]

@[simp] theorem State.decSp_sp (s : State) : s.decSp.sp = byteOf (s.sp.toNat - 1) := by
  simp [State.sp_eq]

@[simp] theorem State.incSp_sp (s : State) : s.incSp.sp = byteOf (s.sp.toNat + 1) := by
  simp [State.sp_eq]

/-- The whole of a stack store: it cannot fail, `sp` is decremented, one cell is written (R97). -/
theorem State.stackStore_eq (s : State) (v : State → Nat) :
    s.stackStore v = .ok (s.decSp.setMem (s.mem.write s.pushAddr (BitVec.ofNat 8 (v s.decSp)))) := by
  simp [State.stackStore, State.pushAddr]

/-- The whole of a stack load: it cannot fail and changes nothing (R31, R97). -/
theorem State.stackLoad_eq (s : State) : s.stackLoad = .ok (s.mem.read s.popAddr) := by
  simp [State.stackLoad, State.popAddr]

theorem State.pushAddr_lt (s : State) : s.pushAddr < 256 := s.decSp.sp.isLt

theorem State.popAddr_lt (s : State) : s.popAddr < 256 := s.sp.isLt

/-! ## Ends of instructions -/

@[simp] theorem State.complete_ok (s t : State) : s.complete (.ok t) = .next t := rfl

@[simp] theorem State.complete_error (s : State) (e : FatalCondition) : s.complete (.error e) = .next (s.raise e) := rfl

/-! ## Fetch -/

/-- The whole of the fetch: below 254 the three cells, from 254 on the first address above 255 (R71). -/
theorem State.fetch_eq (s : State) :
    s.fetch =
      if s.pc ≤ 253 then .ok (s.mem.read s.pc, s.mem.read (s.pc + 1), s.mem.read (s.pc + 2))
      else .error (.addressOutOfRange (max s.pc 256) s.pc) := by
  unfold State.fetch State.memRead
  by_cases h : s.pc ≤ 253
  · simp only [h, show ¬ s.pc > 255 by omega, show ¬ s.pc + 1 > 255 by omega, show ¬ s.pc + 2 > 255 by omega, if_true, if_false]
  · simp only [h, if_false]
    by_cases h4 : s.pc = 254
    · simp [h4]
    · by_cases h5 : s.pc = 255
      · simp [h5]
      · simp [show 255 < s.pc by omega, show 256 ≤ s.pc by omega]

end Sys2Proof.Machine
end

