-- ==== Sys2Proof/Laws/Exec.lean ====
section
/-! SUPPORT. One equation per meaning: the next state it answers, over the named updates. -/

namespace Sys2Proof.Machine

variable (ra rb : Reg) (s : State)

theorem execAdd_eq : execAdd ra rb s =
    .next ((s.writeReg ra ((s.reg ra).toNat + (s.reg rb).toNat)).advance 2) := rfl

theorem execSub_eq : execSub ra rb s =
    .next ((s.writeReg ra ((s.reg ra).toNat - (s.reg rb).toNat)).advance 2) := rfl

theorem execMul_eq : execMul ra rb s =
    .next ((s.writeReg ra ((s.reg ra).toNat * (s.reg rb).toNat)).advance 2) := rfl

theorem execInc_eq : execInc ra s = .next ((s.writeReg ra ((s.reg ra).toNat + 1)).advance 1) := rfl

theorem execDec_eq : execDec ra s = .next ((s.writeReg ra ((s.reg ra).toNat - 1)).advance 1) := rfl

theorem execCmp_eq : execCmp ra rb s =
    .next ((s.setFlag (compareBytes (s.reg ra) (s.reg rb))).advance 2) := rfl

theorem execLdi_eq (imm : Byte) : execLdi ra imm s = .next ((s.writeReg ra imm.toNat).advance 2) := rfl

theorem execPrn_eq : execPrn ra s = .next ((s.emit (s.reg ra)).advance 1) := rfl

theorem execHlt_eq : execHlt s = .next (s.halt.advance 0) := rfl

theorem execPush_eq : execPush ra s =
    .next ((s.decSp.setMem (s.mem.write s.pushAddr (s.decSp.reg ra))).advance 1) := by
  simp [execPush, State.stackStore_eq, Except.map]

theorem execPop_eq : execPop ra s =
    .next ((s.writeReg ra (s.mem.read s.popAddr).toNat).incSp.advance 1) := by
  simp [execPop, State.stackLoad_eq, Except.map]

theorem execCall_eq : execCall ra s =
    .next ((s.decSp.setMem (s.mem.write s.pushAddr (BitVec.ofNat 8 (s.pc + 2)))).setPc (s.decSp.reg ra).toNat) := by
  simp [execCall, State.stackStore_eq, Except.map, State.target]

theorem execRet_eq : execRet s = .next (s.setPc (s.mem.read s.popAddr).toNat).incSp := by
  simp [execRet, State.stackLoad_eq, Except.map]

theorem execJmp_eq : execJmp ra s = .next (s.setPc (s.reg ra).toNat) := rfl

theorem execJeq_eq : execJeq ra s =
    .next (s.setPc (if s.fl = .equal then (s.reg ra).toNat else s.pc + 2)) := by
  cases h : s.fl <;> simp [execJeq, State.jumpIf, State.flagIsEqual, State.target, h]

theorem execJne_eq : execJne ra s =
    .next (s.setPc (if s.fl ≠ .equal then (s.reg ra).toNat else s.pc + 2)) := by
  cases h : s.fl <;> simp [execJne, State.jumpIf, State.flagIsEqual, State.target, h]

end Sys2Proof.Machine
end

