-- ==== Sys2Proof/Laws/PerInstr.lean ====
section
/-! SUPPORT. The per-instruction family EncodedLength: the encoding of an instruction has the length R50 gives it, 1, 2 or 3. -/

namespace Sys2Proof.Laws.EncodedLength

/-- The encoding has `1 + operand_count` bytes, at most 3, whatever the parameters (R50). -/
def Statement (i : Instr) : Prop := ∀ c : Config, (encode c i).length = i.length ∧ i.length ≤ 3

/-- No handler declares more than two operands (R50). -/
theorem operandCount_le (h : Handler) : h.operandCount ≤ 2 := by
  cases h <;> decide

/-- The opcode byte and the handler's operand bytes are the whole encoding. -/
theorem encodedLength (i : Instr) : Statement i := fun c =>
  ⟨by simp [encode, Instr.length, Nat.add_comm], by have := operandCount_le i.handler; simp only [Instr.length]; omega⟩

theorem hlt : Statement .hlt := encodedLength _
theorem ldi (ra : Reg) (imm : Byte) : Statement (.ldi ra imm) := encodedLength _
theorem prn (ra : Reg) : Statement (.prn ra) := encodedLength _
theorem add (ra rb : Reg) : Statement (.add ra rb) := encodedLength _
theorem sub (ra rb : Reg) : Statement (.sub ra rb) := encodedLength _
theorem mul (ra rb : Reg) : Statement (.mul ra rb) := encodedLength _
theorem push (ra : Reg) : Statement (.push ra) := encodedLength _
theorem pop (ra : Reg) : Statement (.pop ra) := encodedLength _
theorem call (ra : Reg) : Statement (.call ra) := encodedLength _
theorem ret : Statement .ret := encodedLength _
theorem cmp (ra rb : Reg) : Statement (.cmp ra rb) := encodedLength _
theorem jmp (ra : Reg) : Statement (.jmp ra) := encodedLength _
theorem jeq (ra : Reg) : Statement (.jeq ra) := encodedLength _
theorem jne (ra : Reg) : Statement (.jne ra) := encodedLength _
theorem inc (ra : Reg) : Statement (.inc ra) := encodedLength _
theorem dec (ra : Reg) : Statement (.dec ra) := encodedLength _

end Sys2Proof.Laws.EncodedLength
end

