-- ==== Sys2Proof/Laws/Step.lean ====
section
/-! SUPPORT. What a step of the engine can do, said once. -/

namespace Sys2Proof.Machine

/-- The only decode error of three fetched bytes is the opcode's. -/
theorem decode_error {c : Config} {op a b : Byte} {e : DecodeError} (h : decode c op a b = .error e) :
    e = .invalidOpcode op ∧ dispatch c op = none := by
  unfold decode at h
  split at h
  · cases h
  · cases h
    exact ⟨rfl, by assumption⟩

/-- The whole of a step (R70): nothing when HALTED, a raise at the fetch or at the dispatch, or the decoded instruction. -/
theorem stepWith_cases (c : Config) (s : State) :
    (s.run = .halted ∧ stepWith c s = .next s) ∨
    (s.run = .running ∧ 254 ≤ s.pc ∧ stepWith c s = .next (s.raise (.addressOutOfRange (max s.pc 256) s.pc))) ∨
    (s.run = .running ∧ s.pc ≤ 253 ∧ dispatch c (s.mem.read s.pc) = none ∧
      stepWith c s = .next (s.raise (.invalidOpcode (s.mem.read s.pc) s.pc))) ∨
    (s.run = .running ∧ s.pc ≤ 253 ∧ ∃ h, dispatch c (s.mem.read s.pc) = some h ∧
      stepWith c s = exec (h.instr (s.mem.read (s.pc + 1)) (s.mem.read (s.pc + 2))) s) := by
  unfold stepWith
  cases hr : s.run with
  | halted => simp
  | running =>
    by_cases hp : s.pc ≤ 253
    · cases hd : dispatch c (s.mem.read s.pc) <;>
        simp [State.fetch_eq, hp, State.dispatchExec, decode, hd, State.dispatchFatal]
    · simp [State.fetch_eq, hp]
      omega

/-- Placing a word keeps the canonical form of memory. -/
theorem State.placeWord_wf {s : State} (nbits w : Nat) (h : s.mem.wf) : (s.placeWord nbits w).mem.wf := by
  have key : ∀ (ks : List Nat) (m : Memory), (∀ k ∈ ks, s.pc + k < 256) → m.wf →
      (ks.foldl (fun m k => Memory.write m (s.pc + k) (tableByte nbits w k)) m).wf := by
    intro ks
    induction ks with
    | nil => exact fun m _ hm => hm
    | cons k rest ih =>
      intro m hk hm
      exact ih _ (fun j hj => hk j (List.mem_cons_of_mem _ hj)) (Memory.write_wf _ (hk k List.mem_cons_self) hm)
  exact key _ _ (fun k hk => by simpa using (List.mem_filter.1 hk).2) h

/-- A load that is not refused keeps the canonical form of memory, whatever stood there before. -/
theorem State.loadImage_wf {s t : State} {image : List Byte} (hw : s.mem.wf) (h : s.loadImage image = .next t) : t.mem.wf := by
  unfold State.loadImage at h
  split at h
  · cases h
  · cases h
    exact Memory.writeBytes_wf (by omega) hw

/-- A run goes on after a step that answers a next state. -/
theorem run_next (M : Host.Core) (k : Nat) {s s' : M.State} (h : M.step s = .next s') : M.run (k + 1) s = M.run k s' := by
  rw [Host.Core.run.eq_def]
  simp only [h]

/-- The same for this machine, its step written as `step`. -/
theorem core_run_next (k : Nat) {s s' : State} (h : step s = .next s') :
    Host.Core.run Sys2Proof.core (k + 1) s = Host.Core.run Sys2Proof.core k s' :=
  run_next Sys2Proof.core k h

end Sys2Proof.Machine
end

