-- ==== Sys2Proof/Tests/Slice0.lean ====
section
/-! SUPPORT. The model's own tests. Expected results are the vectors of spec/95_test_vectors.md or hand calculation from the rules; no
expected value was taken from a run of the model. The `witness_` theorems show that the hypotheses of a statement can be met. -/

open Sys2Proof Sys2Proof.Machine

namespace Sys2Proof.Tests

/-! ## Helpers -/

/-- The reset state with `bytes` at `pc` onwards and some registers set. -/
def st (pc : Nat) (bytes : List Byte) (regs : List (Reg × Byte) := []) : State :=
  regs.foldl (fun s rv => s.writeReg rv.1 rv.2.toNat) ((State.reset.setPc pc).setMem (Memory.writeBytes [] pc bytes))

/-- `step` answers a next state with the property `p`. -/
def after (s : State) (p : State → Bool) : Bool :=
  match step s with
  | .next t => p t
  | _ => false

/-- The parameters with INC and DEC switched off. -/
def noIncDec : Config := { Config.standard with incDecDispatched := false }

/-! ## WellFormed: one ill-formed term per check, and illegal parameters -/

theorem test_wf_refuses_inc_when_switched_off : (Instr.inc 0).wf noIncDec = false := by decide
theorem test_wf_refuses_dec_when_switched_off : (Instr.dec 0).wf noIncDec = false := by decide
theorem test_wf_accepts_inc_dec_by_default :
    (Instr.inc 0).wf Config.standard = true ∧ (Instr.dec 7).wf Config.standard = true := by decide
theorem test_config_wf_refuses_opc_inc_on_a_documented_byte :
    Config.wf { Config.standard with opcInc := 0xA7#8 } = false := by decide
theorem test_config_wf_refuses_opc_dec_on_a_documented_byte :
    Config.wf { Config.standard with opcDec := 0x01#8 } = false := by decide
theorem test_config_wf_refuses_equal_opc_inc_and_opc_dec :
    Config.wf { Config.standard with opcInc := 0x66#8 } = false := by decide
theorem test_config_wf_accepts_the_defaults : Config.standard.wf = true ∧ noIncDec.wf = true := by decide

/-! ## Decode: every constructor from a word written out bit by bit (R51, R54, R55), the last byte leftmost -/

theorem test_decode_hlt : decodeTableWord 8 0b00000001 = some .hlt := by decide
theorem test_decode_ldi : decodeTableWord 24 0b10000011_00000101_10000010 = some (.ldi 5 131) := by decide
theorem test_decode_prn : decodeTableWord 16 0b00000110_01000111 = some (.prn 6) := by decide
theorem test_decode_add : decodeTableWord 24 0b00001001_11111000_10100000 = some (.add 0 1) := by decide
theorem test_decode_sub : decodeTableWord 24 0b00000011_00000010_10100001 = some (.sub 2 3) := by decide
theorem test_decode_mul : decodeTableWord 24 0b00100001_00010000_10100010 = some (.mul 0 1) := by decide
theorem test_decode_push : decodeTableWord 16 0b00000100_01000101 = some (.push 4) := by decide
theorem test_decode_pop : decodeTableWord 16 0b11111111_01000110 = some (.pop 7) := by decide
theorem test_decode_call : decodeTableWord 16 0b00000001_01010000 = some (.call 1) := by decide
theorem test_decode_ret : decodeTableWord 8 0b00010001 = some .ret := by decide
theorem test_decode_cmp : decodeTableWord 24 0b00000110_00000001_10100111 = some (.cmp 1 6) := by decide
theorem test_decode_jmp : decodeTableWord 16 0b00000010_01010100 = some (.jmp 2) := by decide
theorem test_decode_jeq : decodeTableWord 16 0b00000011_01010101 = some (.jeq 3) := by decide
theorem test_decode_jne : decodeTableWord 16 0b00000101_01010110 = some (.jne 5) := by decide
theorem test_decode_inc : decodeTableWord 16 0b00000100_01100101 = some (.inc 4) := by decide
theorem test_decode_dec : decodeTableWord 16 0b00001000_01100110 = some (.dec 0) := by decide

/-- The nearest invalid neighbours of R58. -/
theorem test_decode_rejects_neighbours :
    ([0x00, 0x02, 0x10, 0x12, 0x44, 0x48, 0x51, 0x53, 0x57, 0x64, 0x67, 0x81, 0x83, 0x9F, 0xA3, 0xA6, 0xA8, 0xFF].all
      fun w => decodeTableWord 24 w == none) = true := by decide
theorem test_decode_switched_off_inc_is_invalid : dispatch noIncDec 0x65#8 = none := by decide
theorem test_encode_ldi : encode Config.standard (.ldi 7 42) = [0x82#8, 0x07#8, 0x2A#8] := by decide

/-! ## One step per instruction, from 95_test_vectors.md part 2 -/

theorem test_add_wraps : after (st 0 [0xA0, 0x00, 0x01] [(0, 200), (1, 100)]) (fun t => t.reg 0 == 44 && t.pc == 3) = true := by decide
theorem test_add_doubles_itself : after (st 0 [0xA0, 0x02, 0x02] [(2, 128)]) (fun t => t.reg 2 == 0) = true := by decide
theorem test_sub_borrows : after (st 0 [0xA1, 0x02, 0x03] [(2, 3), (3, 5)]) (fun t => t.reg 2 == 254 && t.reg 3 == 5) = true := by decide
theorem test_sub_sets_no_flag : after (st 0 [0xA1, 0x00, 0x01] [(0, 9), (1, 9)]) (fun t => t.reg 0 == 0 && t.fl == .lessThan) = true := by decide
theorem test_mul_wraps : after (st 0 [0xA2, 0x00, 0x01] [(0, 255), (1, 255)]) (fun t => t.reg 0 == 1) = true := by decide
theorem test_mul_squares_itself : after (st 0 [0xA2, 0x03, 0x03] [(3, 15)]) (fun t => t.reg 3 == 225) = true := by decide
theorem test_inc_wraps : after (st 10 [0x65, 0x04] [(4, 255)]) (fun t => t.reg 4 == 0 && t.pc == 12) = true := by decide
theorem test_dec_wraps : after (st 0 [0x66, 0x00]) (fun t => t.reg 0 == 255 && t.pc == 2) = true := by decide
theorem test_cmp_is_unsigned : after (st 0 [0xA7, 0x00, 0x01] [(0, 0x80), (1, 0x7F)]) (fun t => t.fl == .greaterThan) = true := by decide
theorem test_cmp_alias_is_equal : after (st 0 [0xA7, 0x01, 0x09] [(1, 5)]) (fun t => t.fl == .equal && t.pc == 3) = true := by decide
theorem test_ldi_by_alias : after (st 0 [0x82, 0xFF, 0x2A]) (fun t => t.reg 7 == 42) = true := by decide
theorem test_ldi_at_253 : after (st 253 [0x82, 0x01, 0x07]) (fun t => t.reg 1 == 7 && t.pc == 256) = true := by decide
theorem test_prn_sp : after (st 0 [0x47, 0x07]) (fun t => t.out == [244] && t.pc == 2) = true := by decide
theorem test_prn_appends : after ((st 0 [0x47, 0x00] [(0, 255)]).emit 1) (fun t => t.out == [1, 255]) = true := by decide
theorem test_hlt : after (st 11 [0x01]) (fun t => t.run == .halted && t.err == none && t.pc == 12) = true := by decide
theorem test_hlt_at_254_is_not_executed :
    after (st 254 [0x01]) (fun t => t.err == some (.addressOutOfRange 256 254) && t.run == .halted && t.pc == 254) = true := by decide
theorem test_push_wraps : after (st 0 [0x45, 0x00] [(0, 171), (7, 0)]) (fun t => t.sp == 255 && t.mem.read 255 == 171) = true := by decide
/-- Rests on D8. -/
theorem test_push_r7 : after (st 0 [0x45, 0x07]) (fun t => t.sp == 243 && t.mem.read 243 == 243) = true := by decide
theorem test_pop_wraps :
    after ((st 0 [0x46, 0x01] [(7, 255)]).setMem [(0, 0x46), (1, 0x01), (255, 171)]) (fun t => t.reg 1 == 171 && t.sp == 0) = true := by decide
/-- Rests on D8. -/
theorem test_pop_r7 :
    after ((st 0 [] [(7, 243)]).setMem [(0, 0x46), (1, 0x07), (243, 100)]) (fun t => t.sp == 101) = true := by decide
theorem test_call : after (st 6 [0x50, 0x01] [(1, 11)]) (fun t => t.sp == 243 && t.mem.read 243 == 8 && t.pc == 11) = true := by decide
/-- Rests on D8. -/
theorem test_call_r7 : after (st 6 [0x50, 0x07]) (fun t => t.sp == 243 && t.mem.read 243 == 8 && t.pc == 243) = true := by decide
theorem test_ret :
    after ((st 14 [] [(7, 243)]).setMem [(14, 0x11), (243, 8)]) (fun t => t.pc == 8 && t.sp == 244) = true := by decide
theorem test_ret_on_empty_stack : after (st 0 [0x11]) (fun t => t.pc == 0 && t.sp == 245) = true := by decide
theorem test_jmp : after (st 14 [0x54, 0x02] [(2, 9)]) (fun t => t.pc == 9) = true := by decide
theorem test_jeq_taken : after ((st 14 [0x55, 0x02] [(2, 20)]).setFlag .equal) (fun t => t.pc == 20) = true := by decide
theorem test_jeq_falls_through : after ((st 14 [0x55, 0x02] [(2, 20)]).setFlag .greaterThan) (fun t => t.pc == 16) = true := by decide
theorem test_jne_taken : after ((st 14 [0x56, 0x02] [(2, 9)]).setFlag .greaterThan) (fun t => t.pc == 9) = true := by decide
theorem test_jne_falls_through : after ((st 14 [0x56, 0x02] [(2, 9)]).setFlag .equal) (fun t => t.pc == 16) = true := by decide

/-! ## Fatal conditions, host operations (95_test_vectors.md 2.6; R77, R88, R124, R132) -/

theorem test_out_of_range_comes_before_invalid_opcode :
    after (st 254 [0xFF]) (fun t => t.err == some (.addressOutOfRange 256 254)) = true := by decide
theorem test_invalid_opcode_at_reset :
    after State.reset (fun t => t.err == some (.invalidOpcode 0 0) && t.run == .halted && t.pc == 0) = true := by decide
theorem test_alu_defensive_case :
    (match State.reset.aluInstr .unsupported 0 0 2 with
      | .next t => t.err == some .unsupportedAluOperation && t.run == .halted && t.pc == 0
      | _ => false) = true := by decide
theorem test_trace_line :
    (st 6 [0xA0, 0x00, 0x01] [(0, 8), (1, 9)]).trace = some ⟨6, 0xA0, 0x00, 0x01, #v[8, 9, 0, 0, 0, 0, 0, 244]⟩ := by decide
theorem test_no_trace_line_when_the_fetch_fails : (st 254 [0x01]).trace = none := by decide
theorem test_host_step_of_a_halted_engine :
    (match State.reset.halt.hostStep Config.standard with | .fault .notRunning => true | _ => false) = true := by decide

/-! ## Witnesses: the hypotheses of the statements can be met -/

theorem witness_ExactlyTheListedOpcodesDecode :
    0xA7#8 ∈ validOpcodes Config.standard ∧ 0x65#8 ∈ validOpcodes Config.standard ∧ 0xA8#8 ∉ validOpcodes Config.standard ∧
    0x65#8 ∉ validOpcodes noIncDec ∧ Config.standard.wf = true ∧ noIncDec.wf = true := by decide

theorem witness_DecodeOfEncodeIsIdentity : Config.standard.wf = true ∧ (Instr.dec 7).wf Config.standard = true := by decide

theorem witness_EncodeOfDecodeIsCanonical :
    Config.standard.wf = true ∧ decode Config.standard 0xA0#8 0xF8#8 0x09#8 = .ok (.add 0 1) := ⟨by decide, rfl⟩

theorem witness_IgnoredOperandBitsChangeNothing :
    0xF8#8 &&& 7#8 = 0x00#8 &&& 7#8 ∧ 0x09#8 &&& 7#8 = 0x01#8 &&& 7#8 ∧ (0xA0#8 = 0x82#8 → 0x09#8 = 0x01#8) := by decide

/-- ADD R0,R1 at 6 with 8 and 9, the example of R81. -/
def addState : State := st 6 [0xA0, 0x00, 0x01] [(0, 8), (1, 9)]

theorem witness_StepRunsTheDecodedInstruction :
    addState.run = .running ∧ InstrAt Config.standard addState (.add 0 1) := ⟨by decide, by decide, rfl⟩

theorem witness_StepRunsTheEncodedInstruction :
    Config.standard.wf = true ∧ (Instr.add 0 1).wf Config.standard = true ∧ addState.run = .running ∧ addState.pc ≤ 253 ∧
    ∀ k < (encode Config.standard (.add 0 1)).length,
      addState.mem.read (addState.pc + k) = (encode Config.standard (.add 0 1)).getD k 0#8 := by decide

theorem witness_PlacedWordIsTheNextInstruction :
    State.reset.mem.wf ∧ State.reset.run = .running ∧ State.reset.pc ≤ 253 ∧ decodeTableWord 16 0x0745 = some (.push 7) := by decide

theorem witness_PlacedWordIsTheNextInstruction_at_253 :
    (State.reset.setPc 253).mem.wf ∧ (State.reset.setPc 253).run = .running ∧ (State.reset.setPc 253).pc ≤ 253 ∧
    decodeTableWord 24 0x070182 = some (.ldi 1 7) := by decide

theorem witness_FetchPastTheTopRaises_lowest :
    (st 254 [0x01]).run = .running ∧ 254 ≤ (st 254 [0x01]).pc ∧ (st 254 [0x01]).pc ≤ 256 := by decide

theorem witness_FetchPastTheTopRaises_highest :
    (State.reset.setPc 256).run = .running ∧ 254 ≤ (State.reset.setPc 256).pc ∧ (State.reset.setPc 256).pc ≤ 256 := by decide

theorem witness_UnknownOpcodeRaises :
    (st 253 [0xFF]).run = .running ∧ (st 253 [0xFF]).pc ≤ 253 ∧
    (st 253 [0xFF]).mem.read (st 253 [0xFF]).pc ∉ validOpcodes Config.standard := by decide

theorem witness_HaltedIsFinal : State.reset.halt.run = .halted := by decide

/-- The three ways to halt of HaltsOnlyByHltOrFatalCondition, each at the end of its range of `pc`. -/
theorem witness_HaltsOnlyByHltOrFatalCondition :
    (after (st 253 [0x01]) (fun t => t.run == .halted && t.err == none) &&
      after (st 253 [0xFF]) (fun t => t.run == .halted && t.err == some (.invalidOpcode 0xFF 253)) &&
      after (st 254 [0x01]) (fun t => t.run == .halted && t.err == some (.addressOutOfRange 256 254))) = true := by decide

theorem witness_IncDecReduceModulo256 : Config.standard.wf = true ∧ Config.standard.incDecDispatched = true := by decide

theorem witness_PushStoresTheRegister : State.reset.mem.wf := by decide

theorem witness_CallPushesTheReturnAddress : (st 253 [0x50, 0x01]).mem.wf ∧ (st 253 [0x50, 0x01]).pc ≤ 253 := by decide

theorem witness_PopLoadsTheRegister : (6 : Reg) ≠ 7 ∧ (7 : Reg) = 7 := by decide

theorem witness_JeqJneBranchOnEqual :
    (State.reset.setFlag .equal).fl = .equal ∧ (State.reset.setFlag .greaterThan).fl ≠ .equal := by decide

theorem witness_CmpSetsFlagFromUnsignedOrder :
    ∃ t, exec (.cmp 0 1) State.reset = .next t ∧ t.fl ≠ State.reset.fl := ⟨_, rfl, by decide⟩

theorem witness_OnlyCmpChangesTheFlag :
    after (st 0 [0xA7, 0x00, 0x01]) (fun t => t.fl != (st 0 [0xA7, 0x00, 0x01]).fl) = true := by decide

theorem witness_OnlyPushAndCallWriteMemory :
    (st 0 [0x45, 0x07]).mem.wf ∧ after (st 0 [0x45, 0x07]) (fun t => t.mem.read 243 != (st 0 [0x45, 0x07]).mem.read 243) = true ∧
    (st 0 [0x50, 0x01]).mem.wf ∧ after (st 0 [0x50, 0x01]) (fun t => t.mem.read 243 != (st 0 [0x50, 0x01]).mem.read 243) = true := by
  decide

theorem witness_OnlyPrnExtendsTheOutput : after (st 0 [0x47, 0x07]) (fun t => t.out != (st 0 [0x47, 0x07]).out) = true := by decide

/-- The destination of an ALU instruction, the destination of INC, and register 7 by RET. -/
theorem witness_RegisterWritersAreTheListedOnes :
    (after addState (fun t => t.reg 0 != addState.reg 0) &&
      after (st 0 [0x65, 0x04]) (fun t => t.reg 4 != (st 0 [0x65, 0x04]).reg 4) &&
      after (st 0 [0x11]) (fun t => t.reg 7 != (st 0 [0x11]).reg 7)) = true := by decide

theorem witness_PcAdvancesByTheLength_plain :
    addState.run = .running ∧ InstrAt Config.standard addState (.add 0 1) ∧ (Instr.add 0 1).handler.setsPc = false ∧
    after addState (fun _ => true) = true := ⟨by decide, ⟨by decide, rfl⟩, by decide, by decide⟩

theorem witness_PcAdvancesByTheLength_sets_pc :
    (st 253 [0x54, 0x00]).run = .running ∧ InstrAt Config.standard (st 253 [0x54, 0x00]) (.jmp 0) ∧
    (Instr.jmp 0).handler.setsPc = true ∧ after (st 253 [0x54, 0x00]) (fun _ => true) = true :=
  ⟨by decide, ⟨by decide, rfl⟩, by decide, by decide⟩

theorem witness_UnsupportedAluOperationIsNeverRaised :
    after (State.reset.raise .unsupportedAluOperation) (fun t => t.err == some .unsupportedAluOperation) = true := by decide

theorem reset_inv : Inv State.reset := ⟨by decide, by decide, by decide⟩

theorem witness_EveryStepKeepsTheInvariant :
    Inv State.reset ∧ ∃ t, step State.reset = .next t := ⟨reset_inv, _, rfl⟩

theorem witness_EveryStepKeepsTheDiagnosticExact :
    Inv State.reset ∧ DiagnosticExact Config.standard State.reset ∧ ∃ t, stepWith Config.standard State.reset = .next t :=
  ⟨reset_inv, trivial, _, rfl⟩

theorem witness_RunsOnlyAppendToTheOutput :
    ∃ t, Host.Core.run Sys2Proof.core 2 (st 0 [0x47, 0x07, 0x01]) = .next t := ⟨_, rfl⟩

theorem witness_LessAndGreaterAreIndistinguishable : FlagAlike State.reset (State.reset.setFlag .greaterThan) := ⟨rfl, by decide⟩

theorem witness_ParametersMatterOnlyAtIncAndDec :
    addState.mem.read addState.pc ∉
      [Config.standard.opcInc, Config.standard.opcDec, noIncDec.opcInc, noIncDec.opcDec] := by decide

theorem witness_PushThenPopMovesTheRegister : State.reset.mem.wf ∧ (0 : Reg) ≠ 7 ∧ (6 : Reg) ≠ 7 := by decide

/-- CALL R1 at 6 whose target 11 holds RET. -/
def callState : State := ((st 6 [] [(1, 11)]).setMem [(6, 0x50), (7, 0x01), (11, 0x11)])

theorem witness_CallThenRetComesBack :
    callState.mem.wf ∧ callState.run = .running ∧ InstrAt Config.standard callState (.call 1) ∧
    ∃ t, stepWith Config.standard callState = .next t ∧ InstrAt Config.standard t .ret :=
  ⟨by decide, by decide, ⟨by decide, rfl⟩, _, rfl, by decide, rfl⟩

/-- Program P10 of 95_test_vectors.md before its PUSH. -/
def patchState : State := st 6 [0x45, 0x00, 0xFF] [(0, 1), (7, 9)]

theorem witness_StoreIsSeenByTheNextFetch :
    patchState.mem.wf ∧ patchState.run = .running ∧ InstrAt Config.standard patchState (.push 0) ∧ (0 : Reg) ≠ 7 ∧
    patchState.pushAddr = patchState.pc + 2 ∧ patchState.pc + 2 ≤ 253 ∧ ∃ t, stepWith Config.standard patchState = .next t :=
  ⟨by decide, by decide, ⟨by decide, rfl⟩, by decide, by decide, by decide, _, rfl⟩

theorem witness_JmpToItselfLoopsForEver :
    (st 14 [0x54, 0x02] [(2, 14)]).run = .running ∧ InstrAt Config.standard (st 14 [0x54, 0x02] [(2, 14)]) (.jmp 2) ∧
    ((st 14 [0x54, 0x02] [(2, 14)]).reg 2).toNat = (st 14 [0x54, 0x02] [(2, 14)]).pc :=
  ⟨by decide, ⟨by decide, rfl⟩, by decide⟩

theorem witness_MemoryAccessesAreRangeChecked : State.reset.mem.wf ∧ 255 ≤ 255 ∧ 255 < 256 := by decide

theorem witness_RegisterFileMasksIndexAndValue : 9 % 8 = 1 % 8 ∧ 1000 % 8 ≠ 7 % 8 := by decide

theorem witness_LoadPlacesTheImage :
    (List.replicate 256 0x01#8).length ≤ 256 ∧ 256 < (List.replicate 257 0x01#8).length := by
  rw [List.length_replicate, List.length_replicate]; decide

theorem witness_RunToHaltGivesTheFinalState :
    State.reset.run = .running ∧ ∃ o, State.reset.runToHalt Config.standard 1 = some o := ⟨by decide, _, rfl⟩

end Sys2Proof.Tests
end

section
/-! PROOFS. The register file as R11 to R13 give it: the index masked to 3 bits, the value to 8. -/

namespace Sys2Proof.Machine

/-- Two indices name the same register exactly when their low 3 bits agree (R12). -/
theorem idx_eq_idx_iff {i j : Nat} : idx j = idx i ↔ j % 8 = i % 8 := by
  simp [idx, Fin.ext_iff]

/-- `byte(v)` of a natural number (R6). -/
theorem byteOf_natCast_toNat (v : Nat) : (byteOf (v : Int)).toNat = v % 256 := by
  exact_mod_cast byteOf_val v

/-- A read through any alias of the index written gives the masked value (R12, R13). -/
theorem RegisterFile.getAt_setAt_toNat_of_mod_eq (x : RegisterFile) {i j : Nat} (v : Nat) (h : j % 8 = i % 8) :
    ((RegisterFile.setAt x i v).getAt j).toNat = v % 256 := by
  rw [RegisterFile.getAt_setAt, if_pos (idx_eq_idx_iff.mpr h), byteOf_natCast_toNat]

/-- A write leaves every other register as it was (R12). -/
theorem RegisterFile.getAt_setAt_of_mod_ne (x : RegisterFile) {i j : Nat} (v : Int) (h : j % 8 ≠ i % 8) :
    (RegisterFile.setAt x i v).getAt j = x.getAt j := by
  rw [RegisterFile.getAt_setAt, if_neg (mt idx_eq_idx_iff.mp h)]

/-- Settles O45, from what one register write does to a read at any index; `i % 8` is itself an alias of `i`. -/
theorem registerFileMasksIndexAndValue : Obligations.RegisterFileMasksIndexAndValue := by
  intro x i v j
  exact ⟨RegisterFile.getAt_setAt_toNat_of_mod_eq x v (Nat.mod_mod i 8),
    RegisterFile.getAt_setAt_toNat_of_mod_eq x v,
    RegisterFile.getAt_setAt_of_mod_ne x v⟩

end Sys2Proof.Machine
end

section
/-! PROOFS. The ALU (41_alu.md): the documented opcode bytes, the frame and the result of a register write with an advance, and the
compare flag. -/

namespace Sys2Proof

/-- Whatever the parameters, a documented opcode byte decodes to its handler's instruction (R54, R72, R73). -/
theorem decode_documented (c : Config) {op : Byte} (h : Handler) (a b : Byte)
    (hd : (documentedRows.find? fun row => row.1 == op).map Prod.snd = some h) :
    decode c op a b = .ok (h.instr a b) := by
  simp only [decode, dispatch_documented c hd]

end Sys2Proof

namespace Sys2Proof.Machine

/-! ### A register write and an advance: the end of ADD, SUB, MUL, INC, DEC and LDI -/

theorem State.writesOnlyReg_writeReg_advance (s : State) (ra : Reg) (v : Int) (n : Nat) :
    WritesOnlyReg ra (1 + n) s ((s.writeReg ra v).advance n) := by
  refine ⟨Nat.add_assoc s.pc 1 n, fun r hr => ?_, fun _ => rfl, rfl, rfl, rfl, rfl⟩
  have hne : r ≠ ra := by simpa using hr
  simp [hne]

/-- The destination holds the exact result modulo 256 (R13, R87). -/
theorem State.writeReg_advance_reg_val (s : State) (ra : Reg) (v : Int) (n : Nat) :
    ((((s.writeReg ra v).advance n).reg ra).toNat : Int) = v % 256 := by
  simp [byteOf_val]

/-- The same for a result that is a natural number: the carry and the high byte are lost (R87). -/
theorem State.writeReg_advance_reg_toNat (s : State) (ra : Reg) (v n : Nat) :
    (((s.writeReg ra v).advance n).reg ra).toNat = v % 256 := by
  exact_mod_cast s.writeReg_advance_reg_val ra v n

/-- Settles O16, from the one frame and the one result of a register write with an advance. -/
theorem addSubMulReduceModulo256 : Obligations.AddSubMulReduceModulo256 := by
  refine ⟨fun c a b => ⟨decode_documented c .add a b rfl, decode_documented c .sub a b rfl, decode_documented c .mul a b rfl⟩,
    fun ra rb s => ⟨?add, ?sub, ?mul⟩⟩
  case add =>
    exact ⟨_, execAdd_eq ra rb s, s.writesOnlyReg_writeReg_advance ra _ 2, s.writeReg_advance_reg_toNat ra _ 2⟩
  case sub =>
    exact ⟨_, execSub_eq ra rb s, s.writesOnlyReg_writeReg_advance ra _ 2, s.writeReg_advance_reg_val ra _ 2⟩
  case mul =>
    exact ⟨_, execMul_eq ra rb s, s.writesOnlyReg_writeReg_advance ra _ 2, s.writeReg_advance_reg_toNat ra _ 2⟩

/-! ### The compare flag -/

theorem compareBytes_eq_equal_iff (u v : Byte) : compareBytes u v = .equal ↔ u.toNat = v.toNat := by
  unfold compareBytes
  split_ifs with heq hlt <;> simp [heq]

theorem compareBytes_eq_lessThan_iff (u v : Byte) : compareBytes u v = .lessThan ↔ u.toNat < v.toNat := by
  unfold compareBytes
  split_ifs with heq hlt
  · simp [heq]
  · simp [hlt]
  · simp [hlt]

theorem compareBytes_eq_greaterThan_iff (u v : Byte) : compareBytes u v = .greaterThan ↔ u.toNat > v.toNat := by
  unfold compareBytes
  split_ifs with heq hlt
  · simp [heq]
  · simp [hlt.le]
  · simp only [true_iff]
    omega

/-- Every instruction answers a next state, and only CMP's may have another flag (R17, R86). -/
theorem exec_fl_eq_or_cmp (s : State) : (i : Instr) →
    ∃ t, exec i s = .next t ∧ (t.fl = s.fl ∨ ∃ ra rb, i = .cmp ra rb)
  | .cmp ra rb => ⟨_, execCmp_eq ra rb s, .inr ⟨ra, rb, rfl⟩⟩
  | .hlt => ⟨_, execHlt_eq s, .inl rfl⟩
  | .ldi ra imm => ⟨_, execLdi_eq ra s imm, .inl rfl⟩
  | .prn ra => ⟨_, execPrn_eq ra s, .inl rfl⟩
  | .add ra rb => ⟨_, execAdd_eq ra rb s, .inl rfl⟩
  | .sub ra rb => ⟨_, execSub_eq ra rb s, .inl rfl⟩
  | .mul ra rb => ⟨_, execMul_eq ra rb s, .inl rfl⟩
  | .inc ra => ⟨_, execInc_eq ra s, .inl rfl⟩
  | .dec ra => ⟨_, execDec_eq ra s, .inl rfl⟩
  | .push ra => ⟨_, execPush_eq ra s, .inl rfl⟩
  | .pop ra => ⟨_, execPop_eq ra s, .inl rfl⟩
  | .call ra => ⟨_, execCall_eq ra s, .inl rfl⟩
  | .ret => ⟨_, execRet_eq s, .inl rfl⟩
  | .jmp ra => ⟨_, execJmp_eq ra s, .inl rfl⟩
  | .jeq ra => ⟨_, execJeq_eq ra s, .inl rfl⟩
  | .jne ra => ⟨_, execJne_eq ra s, .inl rfl⟩

/-- An instruction that changes the flag is a CMP (R86). -/
theorem exec_cmp_of_fl_ne {i : Instr} {s t : State} (h : exec i s = .next t) (hfl : t.fl ≠ s.fl) :
    ∃ ra rb, i = .cmp ra rb := by
  obtain ⟨t', ht', hcases⟩ := exec_fl_eq_or_cmp s i
  obtain rfl : t = t' := Host.Outcome.next.inj (h.symm.trans ht')
  exact hcases.resolve_left hfl

/-- Settles O18: the three values of the flag from `compareBytes`, the rest of CMP's next state by its equation, and the other
instructions by `exec_cmp_of_fl_ne`. -/
theorem cmpSetsFlagFromUnsignedOrder : Obligations.CmpSetsFlagFromUnsignedOrder := by
  refine ⟨fun c a b => decode_documented c .cmp a b rfl, fun i s t h hfl => exec_cmp_of_fl_ne h hfl,
    fun ra rb s => ⟨_, execCmp_eq ra rb s, ?equal, ?lessThan, ?greaterThan, rfl, fun _ _ => rfl, fun _ => rfl, rfl, rfl, rfl⟩⟩
  case equal => exact compareBytes_eq_equal_iff _ _
  case lessThan => exact compareBytes_eq_lessThan_iff _ _
  case greaterThan => exact compareBytes_eq_greaterThan_iff _ _

end Sys2Proof.Machine
end

section
/-! PROOFS. LDI (42_ldi_prn_hlt.md): a byte written to a register is not reduced. -/

namespace Sys2Proof.Machine

/-- A byte is read back whole after its write and an advance: masking to 8 bits takes nothing from it (R13, R90). -/
theorem State.writeReg_advance_reg_byte (s : State) (ra : Reg) (b : Byte) (n : Nat) :
    ((s.writeReg ra b.toNat).advance n).reg ra = b := by
  rw [State.advance_reg, State.writeReg_reg, if_pos rfl, byteOf_toNat]

/-- Settles O19: LDI is a register write with an advance, whose frame is the ALU's and whose value is a byte already. -/
theorem ldiLoadsTheImmediate : Obligations.LdiLoadsTheImmediate := by
  refine ⟨fun c a b => decode_documented c .ldi a b rfl, fun ra imm s => ⟨_, execLdi_eq ra s imm, ?value, ?frame⟩⟩
  case value => exact s.writeReg_advance_reg_byte ra imm 2
  case frame => exact s.writesOnlyReg_writeReg_advance ra _ 2

end Sys2Proof.Machine
end

section
/-! PROOFS. RET, JMP, JEQ and JNE (44_control_flow.md): they change `pc`, and RET the stack pointer besides. -/

namespace Sys2Proof.Machine

/-! ### The frame of a jump -/

/-- Setting `pc` changes no register, no cell, and no flag, output or engine state (R103 to R105). -/
theorem State.setPc_frame (s : State) (n : Nat) :
    SameRegsBut [] s (s.setPc n) ∧ SameCells s (s.setPc n) ∧ SameControl s (s.setPc n) :=
  ⟨fun _ _ => rfl, fun _ => rfl, rfl, rfl, rfl, rfl⟩

/-- Settles O26: JMP is a `setPc` to the register's value. -/
theorem jmpGoesToTheRegister : Obligations.JmpGoesToTheRegister :=
  ⟨fun c a b => decode_documented c .jmp a b rfl, fun ra s => ⟨_, execJmp_eq ra s, rfl, s.setPc_frame _⟩⟩

/-- Settles O27: whichever way the flag decides, the next state is a `setPc`, and the flag selects its argument. -/
theorem jeqJneBranchOnEqual : Obligations.JeqJneBranchOnEqual := by
  refine ⟨fun c a b => ⟨decode_documented c .jeq a b rfl, decode_documented c .jne a b rfl⟩,
    fun ra s => ⟨⟨_, execJeq_eq ra s, ?jeqTaken, ?jeqNotTaken, s.setPc_frame _⟩,
      ⟨_, execJne_eq ra s, ?jneTaken, ?jneNotTaken, s.setPc_frame _⟩⟩⟩
  case jeqTaken => exact fun heq => if_pos heq
  case jeqNotTaken => exact fun hne => if_neg hne
  case jneTaken => exact fun hne => if_pos hne
  case jneNotTaken => exact fun heq => if_neg (not_not_intro heq)

/-! ### The stack pointer's increment -/

/-- The increment of the stack pointer is modulo 256 (R14, R102). -/
theorem State.incSp_sp_toNat (s : State) : s.incSp.sp.toNat = (s.sp.toNat + 1) % 256 := by
  rw [State.incSp_sp]
  exact_mod_cast byteOf_natCast_toNat (s.sp.toNat + 1)

/-- The increment of the stack pointer changes no register but 7. -/
theorem State.incSp_reg_of_ne (s : State) {r : Reg} (hr : r ≠ 7) : s.incSp.reg r = s.reg r := by
  rw [State.incSp_reg, if_neg hr]

/-- Settles O25: RET is a `setPc` to the cell at `sp`, then the increment of `sp`. -/
theorem retPopsTheReturnAddress : Obligations.RetPopsTheReturnAddress := by
  refine ⟨fun c a b => decode_documented c .ret a b rfl,
    fun s => ⟨_, execRet_eq s, rfl, rfl, ?sp, fun _ => rfl, ?regs, rfl, rfl, rfl, rfl⟩⟩
  case sp => exact (s.setPc _).incSp_sp_toNat
  case regs => exact fun r hr => (s.setPc _).incSp_reg_of_ne (List.ne_of_not_mem_cons hr)

end Sys2Proof.Machine
end

section
/-! PROOFS. The decoder and the encoder (30_encoding.md): what the dispatcher's table holds, and that the two undo each other. -/

namespace Sys2Proof

open Machine (validOpcodes)

/-! ### The dispatcher's table -/

/-- A handler the dispatcher finds stands in the encoder's column under the byte it was found by, whatever the parameters (R72). -/
theorem opcode_of_dispatch {c : Config} {op : Byte} {h : Handler} (hd : dispatch c op = some h) :
    op = h.opcode c ∧ h.dispatched c = true := by
  obtain ⟨⟨op', h'⟩, hf, rfl⟩ := Option.map_eq_some_iff.mp hd
  obtain rfl : op' = op := by simpa using List.find?_some hf
  exact (mem_opcodeTable c op' h').mp (List.mem_of_find?_eq_some hf)

/-- The numeric order of `validOpcodes` and the table's own order list the same bytes (R54, R55, R58). -/
theorem validOpcodes_perm (c : Config) : (validOpcodes c).Perm ((opcodeTable c).map Prod.fst) := by
  have hdocumented : ([0x01#8, 0x11#8, 0x45#8, 0x46#8, 0x47#8, 0x50#8, 0x54#8, 0x55#8, 0x56#8, 0x82#8, 0xA0#8, 0xA1#8, 0xA2#8,
      0xA7#8] : List Byte).Perm (documentedRows.map Prod.fst) := by decide
  have hincDec : (if c.incDecDispatched then [c.opcInc, c.opcDec] else []) = (incDecRows c).map Prod.fst := by
    unfold incDecRows
    split <;> rfl
  rw [opcodeTable, List.map_append, validOpcodes, hincDec]
  exact hdocumented.append_right _

/-- The dispatcher finds nothing exactly when the byte is not listed (R57, R72). -/
theorem dispatch_eq_none_iff (c : Config) (op : Byte) : dispatch c op = none ↔ op ∉ validOpcodes c := by
  simp only [(validOpcodes_perm c).mem_iff, dispatch, Option.map_eq_none_iff, List.find?_eq_none, List.mem_map, beq_iff_eq,
    not_exists, not_and]

theorem decode_eq_ok_iff {c : Config} {op a b : Byte} {i : Instr} :
    decode c op a b = .ok i ↔ ∃ h, dispatch c op = some h ∧ h.instr a b = i := by
  unfold decode
  cases dispatch c op <;> simp

theorem decode_of_dispatch_none {c : Config} {op : Byte} (a b : Byte) (hd : dispatch c op = none) :
    decode c op a b = .error (.invalidOpcode op) := by
  simp only [decode, hd]

/-- Under legal parameters a well-formed instruction's opcode byte finds its handler (R54, R55). -/
theorem dispatch_opcode {c : Config} (hc : c.wf = true) {i : Instr} (hi : i.wf c = true) :
    dispatch c (i.handler.opcode c) = some i.handler :=
  (dispatch_eq_some_iff hc _ _).mpr ⟨rfl, Instr.wf_eq_dispatched c i ▸ hi⟩

/-! ### Decode after encode, encode after decode -/

/-- Settles O3: the opcode byte finds the instruction's handler, whose operands are the bytes the encoder wrote. -/
theorem decodeOfEncodeIsIdentity : Obligations.DecodeOfEncodeIsIdentity := by
  intro c i rest hc hi
  have hlong : ¬ (i.operandBytes ++ rest).length < i.handler.operandCount := by simp
  have hdrop : (i.operandBytes ++ rest).drop i.handler.operandCount = rest :=
    List.drop_left' i.operandBytes_length
  simp only [encode, List.cons_append, decodeBytes, dispatch_opcode hc hi, if_neg hlong, hdrop, Instr.instr_operandBytes]

/-- The operand bytes of a handler's instruction: a register byte loses its ignored bits, the immediate of LDI stays whole (R51, R62). -/
theorem encode_instr (c : Config) (h : Handler) (a b : Byte) :
    encode c (h.instr a b) =
      [h.opcode c, a &&& 7#8, if h = .ldi then b else b &&& 7#8].take (h.instr a b).length := by
  cases h <;> simp [encode, Handler.instr, Instr.handler, Instr.length, Handler.operandCount, Instr.operandBytes, regByte_regOperand]

/-- Under legal parameters 0x82 is LDI's opcode byte and no other handler's. -/
theorem opcode_eq_ldi_iff {c : Config} (hc : c.wf = true) {op : Byte} {h : Handler} (hd : dispatch c op = some h) :
    op = 0x82#8 ↔ h = .ldi := by
  constructor
  · rintro rfl
    have hldi : dispatch c 0x82#8 = some .ldi := (dispatch_eq_some_iff hc _ _).mpr ⟨rfl, rfl⟩
    exact Option.some.inj (hd.symm.trans hldi)
  · rintro rfl
    exact (opcode_of_dispatch hd).1

/-- Settles O4: the decoded instruction is the dispatched handler's, whose encoding `encode_instr` gives. -/
theorem encodeOfDecodeIsCanonical : Obligations.EncodeOfDecodeIsCanonical := by
  intro c op a b i hc hi
  obtain ⟨h, hd, rfl⟩ := decode_eq_ok_iff.mp hi
  obtain ⟨hop, hdispatched⟩ := opcode_of_dispatch hd
  refine ⟨?wf, ?bytes⟩
  case wf => rw [Instr.wf_eq_dispatched, Handler.instr_handler, hdispatched]
  case bytes => simp only [encode_instr, ← hop, opcode_eq_ldi_iff hc hd]

/-! ### The ignored operand bits -/

/-- A handler's instruction depends on the low 3 bits of its operand bytes, and for LDI on the whole second byte (R12, R62). -/
theorem Handler.instr_congr (h : Handler) {a a' b b' : Byte} (ha : regOperand a = regOperand a')
    (hb : regOperand b = regOperand b') (himm : h = .ldi → b = b') : h.instr a b = h.instr a' b' := by
  cases h
  case ldi => rw [Handler.instr, Handler.instr, ha, himm rfl]
  all_goals simp only [Handler.instr, ha, hb]

/-- Settles O5: the opcode byte alone selects the handler, and the handler masks its register operands. -/
theorem ignoredOperandBitsChangeNothing : Obligations.IgnoredOperandBitsChangeNothing := by
  intro c op a a' b b' ha hb himm
  cases hd : dispatch c op with
  | none => rw [decode_of_dispatch_none a b hd, decode_of_dispatch_none a' b' hd]
  | some h =>
    have hinstr : h.instr a b = h.instr a' b' :=
      h.instr_congr ((regOperand_eq_iff a a').mpr ha) ((regOperand_eq_iff b b').mpr hb)
        fun hldi => himm (by subst hldi; exact (opcode_of_dispatch hd).1)
    simp only [decode, hd, hinstr]

/-! ### The number of invalid bytes -/

/-- Distinct bytes leave all the others of the 256 byte values out. -/
theorem length_filter_not_mem {l : List Byte} (hl : l.Nodup) :
    ((List.range 256).filter fun n => decide (BitVec.ofNat 8 n ∉ l)).length = 256 - l.length := by
  have hperm : (l.map BitVec.toNat).Perm ((List.range 256).filter fun n => decide (BitVec.ofNat 8 n ∈ l)) := by
    refine (List.perm_ext_iff_of_nodup (hl.map fun _ _ => BitVec.eq_of_toNat_eq) (List.nodup_range.filter _)).mpr fun n => ?_
    simp only [List.mem_map, List.mem_filter, List.mem_range, decide_eq_true_eq]
    constructor
    · rintro ⟨b, hb, rfl⟩
      exact ⟨b.isLt, by simpa using hb⟩
    · rintro ⟨hn, hb⟩
      exact ⟨_, hb, by simpa using hn⟩
  have hsplit := List.length_eq_length_filter_add (l := List.range 256) fun n => decide (BitVec.ofNat 8 n ∈ l)
  rw [← hperm.length_eq, List.length_map, List.length_range] at hsplit
  simp only [decide_not]
  omega

theorem length_validOpcodes (c : Config) : (validOpcodes c).length = if c.incDecDispatched then 16 else 14 := by
  unfold validOpcodes
  split <;> rfl

/-- Settles O2: the table lists the valid bytes, and under legal parameters lists each of them once. -/
theorem exactlyTheListedOpcodesDecode : Obligations.ExactlyTheListedOpcodesDecode := by
  refine ⟨fun c op a b => ⟨?listed, ?unlisted⟩, ?count⟩
  case listed =>
    intro hop
    have hsome : dispatch c op ≠ none := fun hd => (dispatch_eq_none_iff c op).mp hd hop
    obtain ⟨h, hd⟩ := Option.ne_none_iff_exists'.mp hsome
    exact ⟨_, decode_eq_ok_iff.mpr ⟨h, hd, rfl⟩⟩
  case unlisted =>
    exact fun hop => decode_of_dispatch_none a b ((dispatch_eq_none_iff c op).mpr hop)
  case count =>
    intro c hc
    have hnodup : (validOpcodes c).Nodup := (validOpcodes_perm c).nodup_iff.mpr (by simpa [Config.wf] using hc)
    rw [length_filter_not_mem hnodup, length_validOpcodes]
    split <;> rfl

/-! ### Words of the table -/

/-- Settles O1: seven closed computations. -/
theorem wordsOfTheTableDecode : Obligations.WordsOfTheTableDecode := by
  unfold Obligations.WordsOfTheTableDecode
  decide

/-- Bits 7..6, bit 5, bit 4 and the low four bits are all of a byte. -/
theorem byte_eq_of_fields {u v : Byte} (h76 : u.toNat / 64 = v.toNat / 64) (h5 : u.getLsbD 5 = v.getLsbD 5)
    (h4 : u.getLsbD 4 = v.getLsbD 4) (hlow : u.toNat % 16 = v.toNat % 16) : u = v := by
  apply BitVec.eq_of_toNat_eq
  simp only [BitVec.getLsbD, Nat.testBit_eq_decide_div_mod_eq, decide_eq_decide] at h5 h4
  omega

/-- The fields of R56 of each of the 16 default opcode bytes. -/
theorem opcode_standard_fields (h : Handler) :
    (h.opcode Config.standard).toNat / 64 = h.operandCount ∧
    (h.opcode Config.standard).getLsbD 5 = h.isAlu ∧
    (h.opcode Config.standard).getLsbD 4 = h.setsPc := by
  cases h <;> decide

theorem dispatch_opcode_standard (h : Handler) : dispatch Config.standard (h.opcode Config.standard) = some h := by
  cases h <;> rfl

/-- Settles O6: the class and the low four bits are the whole opcode byte, which dispatches to one handler only. -/
theorem opcodeBitsShowTheClass : Obligations.OpcodeBitsShowTheClass := by
  refine ⟨opcode_standard_fields, fun h h' hcount halu hpc hlow => ?classes, fun a b => decode_of_dispatch_none a b ?unlisted⟩
  case classes =>
    obtain ⟨hcount₁, halu₁, hpc₁⟩ := opcode_standard_fields h
    obtain ⟨hcount₂, halu₂, hpc₂⟩ := opcode_standard_fields h'
    have hop : h.opcode Config.standard = h'.opcode Config.standard :=
      byte_eq_of_fields (by rw [hcount₁, hcount₂, hcount]) (by rw [halu₁, halu₂, halu]) (by rw [hpc₁, hpc₂, hpc]) hlow
    have hdispatch := dispatch_opcode_standard h
    rw [hop, dispatch_opcode_standard] at hdispatch
    exact (Option.some.inj hdispatch).symm
  case unlisted => decide

end Sys2Proof
end

section
/-! PROOFS. What an instruction and a step do, said once: the next state of every instruction as a function, its effect on each field
of the state, and the four ways a step can go. -/

namespace Sys2Proof.Machine

/-! ### The next state of an instruction -/

/-- The next state of an instruction, over the named updates: the right-hand sides of the equations of Laws/Exec.lean. -/
def effect (i : Instr) (s : State) : State :=
  match i with
  | .hlt => s.halt.advance 0
  | .ldi ra imm => (s.writeReg ra imm.toNat).advance 2
  | .prn ra => (s.emit (s.reg ra)).advance 1
  | .add ra rb => (s.writeReg ra ((s.reg ra).toNat + (s.reg rb).toNat)).advance 2
  | .sub ra rb => (s.writeReg ra ((s.reg ra).toNat - (s.reg rb).toNat)).advance 2
  | .mul ra rb => (s.writeReg ra ((s.reg ra).toNat * (s.reg rb).toNat)).advance 2
  | .push ra => (s.decSp.setMem (s.mem.write s.pushAddr (s.decSp.reg ra))).advance 1
  | .pop ra => (s.writeReg ra (s.mem.read s.popAddr).toNat).incSp.advance 1
  | .call ra =>
    (s.decSp.setMem (s.mem.write s.pushAddr (BitVec.ofNat 8 (s.pc + 2)))).setPc (s.decSp.reg ra).toNat
  | .ret => (s.setPc (s.mem.read s.popAddr).toNat).incSp
  | .cmp ra rb => (s.setFlag (compareBytes (s.reg ra) (s.reg rb))).advance 2
  | .jmp ra => s.setPc (s.reg ra).toNat
  | .jeq ra => s.setPc (if s.fl = .equal then (s.reg ra).toNat else s.pc + 2)
  | .jne ra => s.setPc (if s.fl ≠ .equal then (s.reg ra).toNat else s.pc + 2)
  | .inc ra => (s.writeReg ra ((s.reg ra).toNat + 1)).advance 1
  | .dec ra => (s.writeReg ra ((s.reg ra).toNat - 1)).advance 1

/-- Every instruction completes, with `effect` as its next state (R75). -/
theorem exec_eq (i : Instr) (s : State) : exec i s = .next (effect i s) :=
  match i with
  | .hlt => execHlt_eq s
  | .ldi ra imm => execLdi_eq ra s imm
  | .prn ra => execPrn_eq ra s
  | .add ra rb => execAdd_eq ra rb s
  | .sub ra rb => execSub_eq ra rb s
  | .mul ra rb => execMul_eq ra rb s
  | .push ra => execPush_eq ra s
  | .pop ra => execPop_eq ra s
  | .call ra => execCall_eq ra s
  | .ret => execRet_eq s
  | .cmp ra rb => execCmp_eq ra rb s
  | .jmp ra => execJmp_eq ra s
  | .jeq ra => execJeq_eq ra s
  | .jne ra => execJne_eq ra s
  | .inc ra => execInc_eq ra s
  | .dec ra => execDec_eq ra s

/-! ### The effect on each field -/

/-- No instruction touches the recorded cause (R113). -/
@[simp] theorem effect_err (i : Instr) (s : State) : (effect i s).err = s.err := by
  cases i <;> rfl

/-- Only HLT touches `run` (R92). -/
theorem effect_run (i : Instr) (s : State) : (effect i s).run = if i = .hlt then .halted else s.run := by
  cases i <;> rfl

/-- Only PRN touches `out` (R24, R91). -/
theorem effect_out (i : Instr) (s : State) :
    (effect i s).out = s.out ∨ ∃ ra, i = .prn ra ∧ (effect i s).out = s.out ++ [s.reg ra] := by
  cases i
  case prn ra => exact .inr ⟨ra, rfl, rfl⟩
  all_goals exact .inl rfl

/-- Only PUSH and CALL touch memory, by one write to the cell at the decremented stack pointer (R95, R101). -/
theorem effect_mem (i : Instr) (s : State) :
    (effect i s).mem = s.mem ∨
      (i.handler = .push ∨ i.handler = .call) ∧ ∃ v, (effect i s).mem = s.mem.write s.pushAddr v := by
  cases i
  case push ra => exact .inr ⟨.inl rfl, _, rfl⟩
  case call ra => exact .inr ⟨.inr rfl, _, rfl⟩
  all_goals exact .inl rfl

theorem effect_mem_wf (i : Instr) {s : State} (hw : s.mem.wf) : (effect i s).mem.wf := by
  obtain hmem | ⟨-, v, hmem⟩ := effect_mem i s
  · rwa [hmem]
  · rw [hmem]
    exact Memory.write_wf v s.pushAddr_lt hw

/-- A handler that does not set `pc` is followed by the engine's advance past its operands (R74). -/
theorem effect_pc_of_not_setsPc {i : Instr} (s : State) (h : i.handler.setsPc = false) :
    (effect i s).pc = s.pc + i.length := by
  cases i
  case call | ret | jmp | jeq | jne => cases h
  all_goals exact Nat.add_assoc _ _ _

/-- A handler that sets `pc` takes it from a byte or falls through a two-byte instruction (R100 to R105). -/
theorem effect_pc_le_of_setsPc {i : Instr} {s : State} (h : i.handler.setsPc = true) (hp : s.pc ≤ 253) :
    (effect i s).pc ≤ 255 := by
  have hbyte (b : Byte) : b.toNat ≤ 255 := Nat.le_of_lt_succ b.isLt
  cases i
  case call | ret | jmp => exact hbyte _
  case jeq | jne =>
    simp only [effect, State.setPc_pc]
    split
    · exact hbyte _
    · omega
  all_goals cases h

/-- From an instruction that could be fetched, `pc` goes no further than one past the top (R27). -/
theorem effect_pc_le (i : Instr) {s : State} (hp : s.pc ≤ 253) : (effect i s).pc ≤ 256 := by
  cases h : i.handler.setsPc with
  | true => exact Nat.le_succ_of_le (effect_pc_le_of_setsPc h hp)
  | false =>
    have hlength := (Laws.EncodedLength.encodedLength i Config.standard).2
    rw [effect_pc_of_not_setsPc s h]
    omega

/-! ### The step -/

/-- The four ways a step can go (R70 to R73), with the state each leads to. -/
inductive StepResult (c : Config) (s : State) : State → Prop where
  | halted (hr : s.run = .halted) : StepResult c s s
  | fetchRaises (hr : s.run = .running) (hp : 254 ≤ s.pc) :
      StepResult c s (s.raise (.addressOutOfRange (max s.pc 256) s.pc))
  | dispatchRaises (hr : s.run = .running) (hp : s.pc ≤ 253) (hd : dispatch c (s.mem.read s.pc) = none) :
      StepResult c s (s.raise (.invalidOpcode (s.mem.read s.pc) s.pc))
  | executes (hr : s.run = .running) (hp : s.pc ≤ 253) (h : Handler) (hd : dispatch c (s.mem.read s.pc) = some h) :
      StepResult c s (effect (h.instr (s.mem.read (s.pc + 1)) (s.mem.read (s.pc + 2))) s)

/-- Every step goes one of the four ways. -/
theorem stepWith_result (c : Config) (s : State) : ∃ t, stepWith c s = .next t ∧ StepResult c s t := by
  obtain ⟨hr, hstep⟩ | ⟨hr, hp, hstep⟩ | ⟨hr, hp, hd, hstep⟩ | ⟨hr, hp, h, hd, hstep⟩ := stepWith_cases c s
  · exact ⟨_, hstep, .halted hr⟩
  · exact ⟨_, hstep, .fetchRaises hr hp⟩
  · exact ⟨_, hstep, .dispatchRaises hr hp hd⟩
  · exact ⟨_, hstep.trans (exec_eq _ s), .executes hr hp h hd⟩

/-- The condition of each way leads the step that way. -/
theorem StepResult.stepWith_eq {c : Config} {s t : State} (hstep : StepResult c s t) : stepWith c s = .next t := by
  unfold stepWith
  cases hstep with
  | halted hr => simp only [hr]
  | fetchRaises hr hp => simp only [hr, State.fetch_eq, show ¬ s.pc ≤ 253 by omega, if_false]
  | dispatchRaises hr hp hd =>
    simp only [hr, State.fetch_eq, hp, if_true, State.dispatchExec, decode_of_dispatch_none _ _ hd, State.dispatchFatal]
  | executes hr hp h hd =>
    simp only [hr, State.fetch_eq, hp, if_true, State.dispatchExec, decode_eq_ok_iff.mpr ⟨h, hd, rfl⟩, exec_eq]

theorem stepWith_eq_next_iff {c : Config} {s t : State} : stepWith c s = .next t ↔ StepResult c s t := by
  refine ⟨fun h => ?_, StepResult.stepWith_eq⟩
  obtain ⟨u, hstep, hu⟩ := stepWith_result c s
  obtain rfl : t = u := Host.Outcome.next.inj (h.symm.trans hstep)
  exact hu

/-- A step that changes something `raise` leaves alone executes an instruction, whose opcode byte stands at `pc`. -/
theorem StepResult.executes_of_ne {c : Config} {s t : State} (hstep : StepResult c s t) {α : Type} (f : State → α)
    (hraise : ∀ e, f (s.raise e) = f s) (hne : f t ≠ f s) :
    s.run = .running ∧ s.pc ≤ 253 ∧ ∃ h : Handler, s.mem.read s.pc = h.opcode c ∧ h.dispatched c = true ∧
      t = effect (h.instr (s.mem.read (s.pc + 1)) (s.mem.read (s.pc + 2))) s := by
  cases hstep with
  | halted hr => exact absurd rfl hne
  | fetchRaises hr hp => exact absurd (hraise _) hne
  | dispatchRaises hr hp hd => exact absurd (hraise _) hne
  | executes hr hp h hd =>
    obtain ⟨hop, hdispatched⟩ := opcode_of_dispatch hd
    exact ⟨hr, hp, h, hop, hdispatched, rfl⟩

/-- A RUNNING step whose three cells decode to an instruction has that instruction's next state (R72, R73). -/
theorem stepWith_of_instrAt {c : Config} {s : State} {i : Instr} (hr : s.run = .running) (hi : InstrAt c s i) :
    stepWith c s = .next (effect i s) := by
  obtain ⟨hp, hdecode⟩ := hi
  obtain ⟨h, hd, rfl⟩ := decode_eq_ok_iff.mp hdecode
  exact stepWith_eq_next_iff.mpr (.executes hr hp h hd)

end Sys2Proof.Machine
end

section
/-! PROOFS. The invariants (10_state.md, 60_exceptions.md): good states, exact diagnostics, and what a run keeps. -/

namespace Sys2Proof.Machine

/-! ### Good states -/

theorem Inv.err_eq_none {s : State} (hs : Inv s) (hr : s.run = .running) : s.err = none := by
  by_contra herr
  have hhalted := hs.err_halted herr
  rw [hr] at hhalted
  cases hhalted

/-- A fatal condition keeps memory and `pc`, and records its cause with a halt (R117). -/
theorem inv_raise {s : State} (hs : Inv s) (e : FatalCondition) : Inv (s.raise e) :=
  ⟨hs.mem_wf, hs.pc_le, fun _ => rfl⟩

/-- An instruction that could be fetched keeps memory canonical and `pc` in range, and records no cause. -/
theorem inv_effect {s : State} (hs : Inv s) (hr : s.run = .running) (hp : s.pc ≤ 253) (i : Instr) : Inv (effect i s) :=
  ⟨effect_mem_wf i hs.mem_wf, effect_pc_le i hp, fun herr => absurd (hs.err_eq_none hr) (effect_err i s ▸ herr)⟩

theorem StepResult.inv {c : Config} {s t : State} (hstep : StepResult c s t) (hs : Inv s) : Inv t := by
  cases hstep with
  | halted hr => exact hs
  | fetchRaises hr hp => exact inv_raise hs _
  | dispatchRaises hr hp hd => exact inv_raise hs _
  | executes hr hp h hd => exact inv_effect hs hr hp _

/-- Settles O34: each of the four ways of a step keeps the invariant. -/
theorem everyStepKeepsTheInvariant : Obligations.EveryStepKeepsTheInvariant :=
  ⟨fun _ _ hs h => (stepWith_eq_next_iff.mp h).inv hs, fun _ _ _ hs h => (stepWith_eq_next_iff.mp h).inv hs⟩

theorem inv_resetWith (c : Config) : Inv (State.resetWith c) :=
  ⟨⟨List.Pairwise.nil, fun _ h => absurd h List.not_mem_nil⟩, Nat.zero_le _, fun h => absurd rfl h⟩

/-! ### Exact diagnostics -/

theorem diagnosticExact_of_err_eq_none (c : Config) {s : State} (h : s.err = none) : DiagnosticExact c s := by
  simp only [DiagnosticExact, h]

/-- Settles O35: an executed instruction records nothing, and a raise records what stands at `pc`; 256 is the first address above
the range because `pc` is at most 256. -/
theorem everyStepKeepsTheDiagnosticExact : Obligations.EveryStepKeepsTheDiagnosticExact := by
  intro c s t hs hexact hstep
  cases stepWith_eq_next_iff.mp hstep with
  | halted hr => exact hexact
  | fetchRaises hr hp => exact ⟨max_eq_right hs.pc_le, rfl, hp, hs.pc_le⟩
  | dispatchRaises hr hp hd => exact ⟨rfl, hp, rfl, (dispatch_eq_none_iff c _).mp hd⟩
  | executes hr hp h hd =>
    exact diagnosticExact_of_err_eq_none c ((effect_err _ s).trans (hs.err_eq_none hr))

/-- Settles O36: memory is empty, `pc` is 0 and no cause is recorded. -/
theorem resetMeetsTheInvariants : Obligations.ResetMeetsTheInvariants :=
  ⟨fun c => ⟨inv_resetWith c, diagnosticExact_of_err_eq_none c rfl⟩, inv_resetWith Config.standard⟩

/-! ### LESS_THAN and GREATER_THAN -/

/-- A state alike up to the flag is the state with another flag that is EQUAL when the first is. -/
theorem flagAlike_iff {s s' : State} :
    FlagAlike s s' ↔ ∃ f, s' = s.setFlag f ∧ (f = .equal ↔ s.fl = .equal) := by
  constructor
  · rintro ⟨heq, hfl⟩
    exact ⟨s'.fl, heq, hfl⟩
  · rintro ⟨f, rfl, hfl⟩
    exact ⟨rfl, hfl⟩

/-- JEQ and JNE see of the flag only whether it is EQUAL, CMP overwrites it, and no other instruction looks at it (R17). -/
theorem flagAlike_effect (i : Instr) {s : State} {f : CompareFlag} (hf : f = .equal ↔ s.fl = .equal) :
    FlagAlike (effect i s) (effect i (s.setFlag f)) := by
  cases i
  case cmp => exact ⟨rfl, Iff.rfl⟩
  case jeq | jne =>
    refine ⟨?_, hf⟩
    simp only [effect, State.setFlag_fl, hf, ne_eq]
    rfl
  all_goals exact ⟨rfl, hf⟩

/-- The four ways of a step do not depend on the flag, so two alike states go the same way. -/
theorem StepResult.flagAlike {c : Config} {s t s' : State} (hstep : StepResult c s t) (hs : FlagAlike s s') :
    ∃ t', StepResult c s' t' ∧ FlagAlike t t' := by
  obtain ⟨f, rfl, hf⟩ := flagAlike_iff.mp hs
  cases hstep with
  | halted hr => exact ⟨_, .halted hr, hs⟩
  | fetchRaises hr hp => exact ⟨_, .fetchRaises hr hp, rfl, hf⟩
  | dispatchRaises hr hp hd => exact ⟨_, .dispatchRaises hr hp hd, rfl, hf⟩
  | executes hr hp h hd => exact ⟨_, .executes (s := s.setFlag f) hr hp h hd, flagAlike_effect _ hf⟩

/-- Settles O38, by induction on the number of steps, with `StepResult.flagAlike` for each. -/
theorem lessAndGreaterAreIndistinguishable : Obligations.LessAndGreaterAreIndistinguishable := by
  intro k
  induction k with
  | zero => exact fun s s' hs => ⟨s, s', rfl, rfl, hs⟩
  | succ k ih =>
    intro s s' hs
    obtain ⟨t, hstep, ht⟩ := stepWith_result Config.standard s
    obtain ⟨t', ht', halike⟩ := ht.flagAlike hs
    rw [core_run_next k hstep, core_run_next k ht'.stepWith_eq]
    exact ih t t' halike

/-! ### The output over a run -/

theorem StepResult.out_grows {c : Config} {s t : State} (hstep : StepResult c s t) : ∃ more, t.out = s.out ++ more := by
  have hsame : ∃ more, s.out = s.out ++ more := ⟨[], (List.append_nil _).symm⟩
  cases hstep with
  | halted hr => exact hsame
  | fetchRaises hr hp => exact hsame
  | dispatchRaises hr hp hd => exact hsame
  | executes hr hp h hd =>
    obtain hout | ⟨ra, -, hout⟩ := effect_out (h.instr (s.mem.read (s.pc + 1)) (s.mem.read (s.pc + 2))) s
    · rwa [hout]
    · exact ⟨_, hout⟩

/-- Settles O37, by induction on the number of steps. -/
theorem runsOnlyAppendToTheOutput : Obligations.RunsOnlyAppendToTheOutput := by
  intro k
  induction k with
  | zero =>
    intro s t h
    obtain rfl : s = t := Host.Outcome.next.inj h
    exact ⟨[], (List.append_nil _).symm⟩
  | succ k ih =>
    intro s t h
    obtain ⟨u, hstep, hu⟩ := stepWith_result Config.standard s
    rw [core_run_next k hstep] at h
    obtain ⟨first, hfirst⟩ := hu.out_grows
    obtain ⟨rest, hrest⟩ := ih u t h
    exact ⟨first ++ rest, by rw [hrest, hfirst, List.append_assoc]⟩

end Sys2Proof.Machine
end

section
/-! PROOFS. The step (40_execution_cycle.md): which instruction it runs, how it halts, and which instructions change which field. -/

namespace Sys2Proof.Machine

/-! ### The instruction a step runs -/

theorem handler_eq_of_instr_eq {h : Handler} {a b : Byte} {i : Instr} (heq : h.instr a b = i) : h = i.handler :=
  heq ▸ (Handler.instr_handler h a b).symm

/-- Settles O7: both sides are the decoded instruction's next state. -/
theorem stepRunsTheDecodedInstruction : Obligations.StepRunsTheDecodedInstruction := by
  have hstep (c : Config) (s : State) (i : Instr) (hr : s.run = .running) (hi : InstrAt c s i) : stepWith c s = exec i s :=
    (stepWith_of_instrAt hr hi).trans (exec_eq i s).symm
  exact ⟨hstep, hstep Config.standard⟩

/-- The two fetched bytes matter only as far as the instruction has operands (R51, R73). -/
theorem instr_eq_of_operandBytes {i : Instr} {a b : Byte}
    (ha : 0 < i.handler.operandCount → a = i.operandBytes.getD 0 0#8)
    (hb : 1 < i.handler.operandCount → b = i.operandBytes.getD 1 0#8) : i.handler.instr a b = i := by
  cases i
  case hlt | ret => rfl
  case ldi | add | sub | mul | cmp =>
    rw [ha Nat.zero_lt_two, hb Nat.one_lt_two]
    simp [Instr.handler, Handler.instr, Instr.operandBytes]
  all_goals
    rw [ha Nat.zero_lt_one]
    simp [Instr.handler, Handler.instr, Instr.operandBytes]

/-- An encoding that stands in memory at `pc` is the instruction the fetch and the dispatch find there (R50, R52). -/
theorem instrAt_of_encode {c : Config} {s : State} {i : Instr} (hc : c.wf = true) (hi : i.wf c = true) (hp : s.pc ≤ 253)
    (hcells : ∀ k < (encode c i).length, s.mem.read (s.pc + k) = (encode c i).getD k 0#8) : InstrAt c s i := by
  rw [encode, List.length_cons, Instr.operandBytes_length] at hcells
  have hop : s.mem.read s.pc = i.handler.opcode c := hcells 0 (Nat.succ_pos _)
  refine ⟨hp, decode_eq_ok_iff.mpr ⟨i.handler, hop ▸ dispatch_opcode hc hi, instr_eq_of_operandBytes ?_ ?_⟩⟩
  · exact fun hcount => hcells 1 (Nat.succ_lt_succ hcount)
  · exact fun hcount => hcells 2 (Nat.succ_lt_succ hcount)

/-- Settles O8: the encoding at `pc` decodes to the instruction, whatever follows it. -/
theorem stepRunsTheEncodedInstruction : Obligations.StepRunsTheEncodedInstruction :=
  fun c s i hc hi hr hp hcells =>
    stepRunsTheDecodedInstruction.1 c s i hr (instrAt_of_encode hc hi hp hcells)

theorem State.placeWord_pc (s : State) (nbits w : Nat) : (s.placeWord nbits w).pc = s.pc := rfl

/-- Below 254 the three bytes of a word go to three cells that exist (R33, R34). -/
theorem State.placeWord_mem {s : State} (nbits w : Nat) (hp : s.pc ≤ 253) :
    (s.placeWord nbits w).mem = (((s.mem.write s.pc (tableByte nbits w 0)).write (s.pc + 1) (tableByte nbits w 1)).write
      (s.pc + 2) (tableByte nbits w 2)) := by
  have hall : (List.range 3).filter (fun k => s.pc + k < 256) = [0, 1, 2] := by
    refine List.filter_eq_self.mpr fun k hk => decide_eq_true ?_
    have hk3 := List.mem_range.mp hk
    omega
  simp only [State.placeWord, hall, List.foldl_cons, List.foldl_nil, State.setMem_mem, Nat.add_zero]

/-- The three cells the next fetch reads hold the word's bytes (log 11). -/
theorem State.placeWord_read {s : State} (nbits w : Nat) (hw : s.mem.wf) (hp : s.pc ≤ 253) :
    (s.placeWord nbits w).mem.read s.pc = tableByte nbits w 0 ∧
    (s.placeWord nbits w).mem.read (s.pc + 1) = tableByte nbits w 1 ∧
    (s.placeWord nbits w).mem.read (s.pc + 2) = tableByte nbits w 2 := by
  have h₀ := Memory.write_sorted s.pc (tableByte nbits w 0) hw.1
  have h₁ := Memory.write_sorted (s.pc + 1) (tableByte nbits w 1) h₀
  simp [State.placeWord_mem nbits w hp, Memory.read_write _ _ h₁, Memory.read_write _ _ h₀, Memory.read_write _ _ hw.1]

/-- Settles O9: the placed bytes are the three that the step fetches and decodes. -/
theorem placedWordIsTheNextInstruction : Obligations.PlacedWordIsTheNextInstruction := by
  intro s nbits w i hw hr hp hword
  obtain ⟨hop, ha, hb⟩ := State.placeWord_read nbits w hw hp
  have hdecode : decode Config.standard (tableByte nbits w 0) (tableByte nbits w 1) (tableByte nbits w 2) = .ok i := by
    unfold decodeTableWord at hword
    split at hword
    · rename_i hok
      rw [hok, Option.some.inj hword]
    · cases hword
  have hat : InstrAt Config.standard (s.withFetchWord nbits w) i := by
    simp only [InstrAt, State.withFetchWord, State.placeWord_pc, hop, ha, hb]
    exact ⟨hp, hdecode⟩
  exact stepRunsTheDecodedInstruction.2 _ i hr hat

/-! ### Fatal conditions, HALTED, completion -/

/-- Settles O10: the first address out of range is 256 because `pc` is at most 256. -/
theorem fetchPastTheTopRaises : Obligations.FetchPastTheTopRaises := by
  intro c s hr hlow hhigh
  rw [(StepResult.fetchRaises (c := c) hr hlow).stepWith_eq, max_eq_right hhigh]
  rfl

/-- Settles O11: an unlisted byte is one the dispatcher does not find. -/
theorem unknownOpcodeRaises : Obligations.UnknownOpcodeRaises :=
  fun c _ hr hp hop => (StepResult.dispatchRaises hr hp ((dispatch_eq_none_iff c _).mpr hop)).stepWith_eq

/-- A state whose step is itself stays for ever. -/
theorem core_run_of_step_eq_self {s : State} (h : step s = .next s) (k : Nat) :
    Host.Core.run Sys2Proof.core k s = .next s := by
  induction k with
  | zero => rfl
  | succ k ih => rw [core_run_next k h, ih]

/-- Settles O12: a HALTED state's step is itself, and the host's step asks for RUNNING. -/
theorem haltedIsFinal : Obligations.HaltedIsFinal := by
  intro s hr
  have hstep (c : Config) : stepWith c s = .next s := (StepResult.halted hr).stepWith_eq
  exact ⟨hstep, core_run_of_step_eq_self (hstep Config.standard), fun c => by simp only [State.hostStep, hr]⟩

/-- Settles O13: each of the four ways of a step leads to a state. -/
theorem everyStateHasANextState : Obligations.EveryStateHasANextState := by
  intro c s
  obtain ⟨t, hstep, -⟩ := stepWith_result c s
  exact ⟨t, hstep⟩

/-- Settles O14, from the effect of an instruction on `err` and on `run`. -/
theorem noHandlerRaises : Obligations.NoHandlerRaises :=
  fun i s => ⟨effect i s, exec_eq i s, effect_err i s, effect_run i s⟩

/-- Settles O15: of the four ways of a step from RUNNING, two raise, and an executed instruction that halts is HLT. -/
theorem haltsOnlyByHltOrFatalCondition : Obligations.HaltsOnlyByHltOrFatalCondition := by
  intro c s t hrunning hstep hhalted
  cases stepWith_eq_next_iff.mp hstep with
  | halted hr =>
    rw [hrunning] at hr
    cases hr
  | fetchRaises hr hp => exact .inr (.inr ⟨hp, _, rfl⟩)
  | dispatchRaises hr hp hd => exact .inr (.inl ⟨hp, (dispatch_eq_none_iff c _).mp hd, rfl⟩)
  | executes hr hp h hd =>
    have hhlt : h.instr (s.mem.read (s.pc + 1)) (s.mem.read (s.pc + 2)) = .hlt := by
      by_contra hne
      rw [effect_run, if_neg hne, hr] at hhalted
      cases hhalted
    obtain rfl : h = .hlt := handler_eq_of_instr_eq hhlt
    exact .inl ⟨hp, (opcode_of_dispatch hd).1, rfl⟩

/-- Settles O33: a raise of the step records another cause, and an instruction records none. -/
theorem unsupportedAluOperationIsNeverRaised : Obligations.UnsupportedAluOperationIsNeverRaised := by
  intro c s t hstep herr
  cases stepWith_eq_next_iff.mp hstep with
  | halted hr => exact herr
  | fetchRaises hr hp => cases herr
  | dispatchRaises hr hp hd => cases herr
  | executes hr hp h hd => exact (effect_err _ s).symm.trans herr

/-- Settles O32, from the effect of an instruction on `pc`. -/
theorem pcAdvancesByTheLength : Obligations.PcAdvancesByTheLength := by
  intro c s t i hr hi hstep
  obtain rfl : effect i s = t := Host.Outcome.next.inj ((stepWith_of_instrAt hr hi).symm.trans hstep)
  exact ⟨effect_pc_of_not_setsPc s, fun hsets => effect_pc_le_of_setsPc hsets hi.1⟩

/-- Settles O43: the jump sets `pc` to what it is, so the state is its own next state. -/
theorem jmpToItselfLoopsForEver : Obligations.JmpToItselfLoopsForEver := by
  intro ra s k hr hi htarget
  have hself : effect (.jmp ra) s = s := congrArg s.setPc htarget
  have hstep : step s = .next (effect (.jmp ra) s) := stepWith_of_instrAt hr hi
  exact core_run_of_step_eq_self (hstep.trans (congrArg _ hself)) k

/-! ### The parameters -/

/-- A byte that is not one of the INC and DEC bytes is looked up in the documented rows only (R54, R55). -/
theorem dispatch_of_not_incDec {c : Config} {op : Byte} (hinc : op ≠ c.opcInc) (hdec : op ≠ c.opcDec) :
    dispatch c op = (documentedRows.find? fun row => row.1 == op).map Prod.snd := by
  have hnone : (incDecRows c).find? (fun row => row.1 == op) = none := by
    unfold incDecRows
    split <;> simp [hinc.symm, hdec.symm]
  rw [dispatch, opcodeTable, List.find?_append, hnone, Option.or_none]

/-- The parameters enter a step through the dispatch of its opcode byte only. -/
theorem StepResult.of_dispatch_eq {c c' : Config} {s t : State} (hstep : StepResult c s t)
    (heq : dispatch c (s.mem.read s.pc) = dispatch c' (s.mem.read s.pc)) : StepResult c' s t := by
  cases hstep with
  | halted hr => exact .halted hr
  | fetchRaises hr hp => exact .fetchRaises hr hp
  | dispatchRaises hr hp hd => exact .dispatchRaises hr hp (heq ▸ hd)
  | executes hr hp h hd => exact .executes hr hp h (heq ▸ hd)

/-- Settles O39: away from the INC and DEC bytes the two dispatchers agree. -/
theorem parametersMatterOnlyAtIncAndDec : Obligations.ParametersMatterOnlyAtIncAndDec := by
  intro c c' s hop
  simp only [List.mem_cons, List.not_mem_nil, or_false, not_or] at hop
  obtain ⟨hinc, hdec, hinc', hdec'⟩ := hop
  obtain ⟨t, hstep, ht⟩ := stepWith_result c s
  have heq : dispatch c (s.mem.read s.pc) = dispatch c' (s.mem.read s.pc) :=
    (dispatch_of_not_incDec hinc hdec).trans (dispatch_of_not_incDec hinc' hdec').symm
  exact hstep.trans (ht.of_dispatch_eq heq).stepWith_eq.symm

/-! ### Which instruction changes which field -/

/-- Settles O28: the executed instruction is a CMP, and its opcode byte is CMP's. -/
theorem onlyCmpChangesTheFlag : Obligations.OnlyCmpChangesTheFlag := by
  intro c s t hstep hne
  obtain ⟨hr, hp, h, hop, -, rfl⟩ := (stepWith_eq_next_iff.mp hstep).executes_of_ne State.fl (fun _ => rfl) hne
  obtain ⟨ra, rb, hcmp⟩ := exec_cmp_of_fl_ne (exec_eq _ s) hne
  obtain rfl : h = .cmp := handler_eq_of_instr_eq hcmp
  exact ⟨hr, hp, hop⟩

/-- Settles O29: the executed instruction is a PUSH or a CALL, which writes one cell. -/
theorem onlyPushAndCallWriteMemory : Obligations.OnlyPushAndCallWriteMemory := by
  intro c s t a hw hstep hne
  obtain ⟨hr, hp, h, hop, -, rfl⟩ :=
    (stepWith_eq_next_iff.mp hstep).executes_of_ne (fun u => u.mem.read a) (fun _ => rfl) hne
  obtain hmem | ⟨hhandler, v, hmem⟩ := effect_mem (h.instr (s.mem.read (s.pc + 1)) (s.mem.read (s.pc + 2))) s
  · exact absurd (congrArg (Memory.read · a) hmem) hne
  · rw [Handler.instr_handler] at hhandler
    have haddr : a = s.pushAddr := by
      by_contra hother
      rw [hmem, Memory.read_write _ _ hw.1, if_neg hother] at hne
      exact hne rfl
    obtain rfl | rfl := hhandler
    · exact ⟨hr, hp, .inl hop, haddr⟩
    · exact ⟨hr, hp, .inr hop, haddr⟩

/-- Settles O30: the executed instruction is a PRN of the register its operand byte selects. -/
theorem onlyPrnExtendsTheOutput : Obligations.OnlyPrnExtendsTheOutput := by
  intro c s t hstep hne
  obtain ⟨hr, hp, h, hop, -, rfl⟩ := (stepWith_eq_next_iff.mp hstep).executes_of_ne State.out (fun _ => rfl) hne
  obtain hout | ⟨ra, hprn, hout⟩ := effect_out (h.instr (s.mem.read (s.pc + 1)) (s.mem.read (s.pc + 2))) s
  · exact absurd hout hne
  · obtain rfl : h = .prn := handler_eq_of_instr_eq hprn
    exact ⟨hr, hp, hop, rfl⟩

/-- The handlers that write the register of their first operand byte (R10). -/
def writesDestination : Handler → Bool
  | .ldi | .add | .sub | .mul | .inc | .dec | .pop => true
  | _ => false

/-- The handlers that move the stack pointer (R10). -/
def movesStackPointer : Handler → Bool
  | .push | .pop | .call | .ret => true
  | _ => false

theorem opcode_of_writesDestination {c : Config} {h : Handler} (hw : writesDestination h = true)
    (hdispatched : h.dispatched c = true) :
    h.opcode c ∈ [0x82#8, 0xA0#8, 0xA1#8, 0xA2#8, 0x46#8] ∨
      (c.incDecDispatched = true ∧ (h.opcode c = c.opcInc ∨ h.opcode c = c.opcDec)) := by
  cases h
  case ldi | add | sub | mul | pop => left; simp [Handler.opcode]
  case inc => exact .inr ⟨hdispatched, .inl rfl⟩
  case dec => exact .inr ⟨hdispatched, .inr rfl⟩
  all_goals cases hw

theorem opcode_of_movesStackPointer (c : Config) {h : Handler} (hm : movesStackPointer h = true) :
    h.opcode c ∈ [0x45#8, 0x46#8, 0x50#8, 0x11#8] := by
  cases h
  case push | pop | call | ret => simp [Handler.opcode]
  all_goals cases hm

theorem State.eq_of_writeReg_reg_ne {s : State} {r r' : Reg} {v : Int} (hne : (s.writeReg r v).reg r' ≠ s.reg r') : r' = r := by
  by_contra hother
  rw [State.writeReg_reg, if_neg hother] at hne
  exact hne rfl

/-- A register an instruction changes is its destination, or register 7 by a move of the stack pointer (R10). -/
theorem effect_reg_ne {h : Handler} {a b : Byte} {s : State} {r : Reg} (hne : (effect (h.instr a b) s).reg r ≠ s.reg r) :
    (r = regOperand a ∧ writesDestination h = true) ∨ (r = 7 ∧ movesStackPointer h = true) := by
  cases h
  case ldi | add | sub | mul | inc | dec => exact .inl ⟨State.eq_of_writeReg_reg_ne hne, rfl⟩
  case push | call | ret => exact .inr ⟨State.eq_of_writeReg_reg_ne hne, rfl⟩
  case pop =>
    by_cases hsp : r = 7
    · exact .inr ⟨hsp, rfl⟩
    · refine .inl ⟨State.eq_of_writeReg_reg_ne (s := s) (v := (s.mem.read s.popAddr).toNat) ?_, rfl⟩
      rwa [← State.incSp_reg_of_ne _ hsp]
  all_goals exact absurd rfl hne

/-- Settles O31: the executed handler writes its destination or moves the stack pointer. -/
theorem registerWritersAreTheListedOnes : Obligations.RegisterWritersAreTheListedOnes := by
  intro c s t r hstep hne
  obtain ⟨hr, hp, h, hop, hdispatched, rfl⟩ :=
    (stepWith_eq_next_iff.mp hstep).executes_of_ne (fun u => u.reg r) (fun _ => rfl) hne
  rw [hop]
  obtain ⟨hreg, hw⟩ | ⟨hreg, hm⟩ := effect_reg_ne hne
  · exact ⟨hr, hp, .inl ⟨hreg, opcode_of_writesDestination hw hdispatched⟩⟩
  · exact ⟨hr, hp, .inr ⟨hreg, opcode_of_movesStackPointer c hm⟩⟩

end Sys2Proof.Machine
end

section
/-! PROOFS. INC, DEC, PRN, HLT, PUSH, POP and CALL (41_alu.md, 42_ldi_prn_hlt.md, 43_stack.md, 44_control_flow.md), and the sequences
a stack store begins. -/

namespace Sys2Proof.Machine

/-! ### INC, DEC, PRN, HLT -/

/-- Under legal parameters the byte of a dispatched handler decodes to that handler's instruction (R54, R55). -/
theorem decode_opcode {c : Config} (hc : c.wf = true) {h : Handler} (hdispatched : h.dispatched c = true) (a b : Byte) :
    decode c (h.opcode c) a b = .ok (h.instr a b) :=
  decode_eq_ok_iff.mpr ⟨h, (dispatch_eq_some_iff hc _ h).mpr ⟨rfl, hdispatched⟩, rfl⟩

/-- Settles O17: INC and DEC are register writes with an advance, under the parameters' opcode bytes. -/
theorem incDecReduceModulo256 : Obligations.IncDecReduceModulo256 := by
  have hdecode (c : Config) (a b : Byte) (hc : c.wf = true) (hd : c.incDecDispatched = true) :
      decode c c.opcInc a b = .ok (.inc (regOperand a)) ∧ decode c c.opcDec a b = .ok (.dec (regOperand a)) :=
    ⟨decode_opcode hc (h := .inc) hd a b, decode_opcode hc (h := .dec) hd a b⟩
  refine ⟨hdecode, fun a b => hdecode Config.standard a b (by decide) rfl, fun ra s => ⟨?inc, ?dec⟩⟩
  case inc =>
    exact ⟨_, execInc_eq ra s, s.writesOnlyReg_writeReg_advance ra _ 1, s.writeReg_advance_reg_toNat ra _ 1⟩
  case dec =>
    exact ⟨_, execDec_eq ra s, s.writesOnlyReg_writeReg_advance ra _ 1, s.writeReg_advance_reg_val ra _ 1⟩

/-- Settles O20: PRN is an `emit` with an advance. -/
theorem prnEmitsTheRegister : Obligations.PrnEmitsTheRegister :=
  ⟨fun c a b => decode_documented c .prn a b rfl,
    fun ra s => ⟨_, execPrn_eq ra s, rfl, rfl, fun _ _ => rfl, fun _ => rfl, rfl, rfl, rfl⟩⟩

/-- Settles O21: HLT is a `halt` with an advance. -/
theorem hltStopsTheEngine : Obligations.HltStopsTheEngine :=
  ⟨fun c a b => decode_documented c .hlt a b rfl,
    fun s => ⟨_, execHlt_eq s, rfl, rfl, rfl, fun _ _ => rfl, fun _ => rfl, rfl, rfl⟩⟩

/-! ### The decrement of the stack pointer and the store behind it -/

/-- The decrement of the stack pointer is modulo 256 (R14, R95). -/
theorem State.decSp_sp_val (s : State) : (s.decSp.sp.toNat : Int) = (s.sp.toNat - 1 : Int) % 256 := by
  rw [State.decSp_sp, byteOf_val]

theorem State.decSp_reg_of_ne (s : State) {r : Reg} (hr : r ≠ 7) : s.decSp.reg r = s.reg r := by
  rw [State.decSp_reg, if_neg hr]

/-- A register read after the decrement sees it exactly when it is register 7 (D8). -/
theorem State.decSp_reg_eq_ite (s : State) (r : Reg) : s.decSp.reg r = if r = 7 then s.decSp.sp else s.reg r := by
  split
  next hr => rw [hr, State.sp_eq]
  next hr => exact s.decSp_reg_of_ne hr

/-- The cell a stack store writes reads as the byte stored, and every other cell as before (R32, R97). -/
theorem State.read_write_pushAddr {s : State} (hw : s.mem.wf) (v : Byte) :
    (s.mem.write s.pushAddr v).read s.pushAddr = v ∧
      ∀ a, a ≠ s.pushAddr → (s.mem.write s.pushAddr v).read a = s.mem.read a :=
  ⟨by rw [Memory.read_write _ _ hw.1, if_pos rfl], fun a ha => by rw [Memory.read_write _ _ hw.1, if_neg ha]⟩

/-- A stack store leaves every register but 7, the flag, the output and the engine state as they were. -/
theorem State.decSp_setMem_frame (s : State) (m : Memory) :
    SameRegsBut [7] s (s.decSp.setMem m) ∧ SameControl s (s.decSp.setMem m) :=
  ⟨fun _ hr => s.decSp_reg_of_ne (List.ne_of_not_mem_cons hr), rfl, rfl, rfl, rfl⟩

/-- Settles O22: PUSH is a stack store of a register read after the decrement, with an advance. -/
theorem pushStoresTheRegister : Obligations.PushStoresTheRegister := by
  refine ⟨fun c a b => decode_documented c .push a b rfl, fun ra s hw => ?_⟩
  obtain ⟨hread, hcells⟩ := State.read_write_pushAddr hw (s.decSp.reg ra)
  obtain ⟨hregs, hcontrol⟩ := s.decSp_setMem_frame (s.mem.write s.pushAddr (s.decSp.reg ra))
  exact ⟨_, execPush_eq ra s, s.decSp_sp_val, rfl, hread.trans (s.decSp_reg_eq_ite ra), hcells, hregs, rfl, hcontrol⟩

/-- Settles O24: CALL is a stack store of `pc + 2`, with a jump to a register read after the decrement. -/
theorem callPushesTheReturnAddress : Obligations.CallPushesTheReturnAddress := by
  refine ⟨fun c a b => decode_documented c .call a b rfl, fun ra s hw => ?_⟩
  obtain ⟨hread, hcells⟩ := State.read_write_pushAddr hw (BitVec.ofNat 8 (s.pc + 2))
  obtain ⟨hregs, hcontrol⟩ := s.decSp_setMem_frame (s.mem.write s.pushAddr (BitVec.ofNat 8 (s.pc + 2)))
  have hreturn := (congrArg BitVec.toNat hread).trans (BitVec.toNat_ofNat (s.pc + 2) 8)
  refine ⟨_, execCall_eq ra s, s.decSp_sp_val, rfl, hreturn, ?exact, ?target, hcells, hregs, hcontrol⟩
  case exact => exact fun hp => hreturn.trans (Nat.mod_eq_of_lt (by omega))
  case target => exact congrArg BitVec.toNat (s.decSp_reg_eq_ite ra)

/-! ### POP -/

/-- Settles O23: POP is a register write, then the increment of `sp`, which reads register 7 again (D8). -/
theorem popLoadsTheRegister : Obligations.PopLoadsTheRegister := by
  refine ⟨fun c a b => decode_documented c .pop a b rfl, fun ra s => ?_⟩
  let t := s.writeReg ra (s.mem.read s.popAddr).toNat
  have hreg (r : Reg) : t.reg r = if r = ra then s.mem.read s.popAddr else s.reg r := by
    rw [State.writeReg_reg, byteOf_toNat]
  refine ⟨t.incSp.advance 1, execPop_eq ra s, fun hra => ⟨?value, ?sp⟩, ?seven, rfl, fun _ => rfl, ?regs, rfl, rfl, rfl, rfl, rfl⟩
  case value => exact (t.incSp_reg_of_ne hra).trans ((hreg ra).trans (if_pos rfl))
  case sp =>
    have hsp : t.sp = s.sp := (hreg 7).trans (if_neg hra.symm)
    exact t.incSp_sp_toNat.trans (by rw [hsp])
  case seven =>
    intro hra
    have hsp : t.sp = s.mem.read s.popAddr := (hreg 7).trans (if_pos hra.symm)
    exact t.incSp_sp_toNat.trans (by rw [hsp])
  case regs =>
    intro r hr
    obtain ⟨hra, h7⟩ : r ≠ ra ∧ r ≠ 7 := by simpa using hr
    exact (t.incSp_reg_of_ne h7).trans ((hreg r).trans (if_neg hra))

/-! ### A load after a store -/

/-- The increment takes the decrement of a byte back, modulo 256 (R14, R97). -/
theorem byteOf_pred_succ (b : Byte) : byteOf ((byteOf (b.toNat - 1)).toNat + 1) = b := by
  have hlt := b.isLt
  have hpred := byteOf_val (b.toNat - 1)
  have hsucc := byteOf_val ((byteOf (b.toNat - 1)).toNat + 1)
  exact BitVec.eq_of_toNat_eq (by omega)

/-- An increment after a decrement gives every register back that nothing has written in between. -/
theorem State.incSp_reg_of_decSp {s t : State} {r : Reg} (hreg : t.reg r = s.decSp.reg r) (hsp : t.sp = s.decSp.sp) :
    t.incSp.reg r = s.reg r := by
  by_cases hr : r = 7
  · rw [hr, State.incSp_reg, if_pos rfl, hsp, State.decSp_sp, byteOf_pred_succ, State.sp_eq]
  · rw [State.incSp_reg_of_ne _ hr, hreg, State.decSp_reg_of_ne _ hr]

/-- Settles O40: POP reads the cell PUSH wrote, and its increment takes PUSH's decrement back. -/
theorem pushThenPopMovesTheRegister : Obligations.PushThenPopMovesTheRegister := by
  intro r r' s hw hr hr'
  let t := effect (.push r) s
  have hload : t.mem.read t.popAddr = s.reg r :=
    (State.read_write_pushAddr hw (s.decSp.reg r)).1.trans (s.decSp_reg_of_ne hr)
  let t' := t.writeReg r' (t.mem.read t.popAddr).toNat
  have hregs : ∀ q, q ≠ r' → t'.reg q = s.decSp.reg q := fun q hq => (t.writeReg_reg r' q _).trans (if_neg hq)
  have hsp : t'.sp = s.decSp.sp := hregs 7 hr'.symm
  refine ⟨t, _, exec_eq _ s, exec_eq (.pop r') t, ?sp, ?value, ?regs, rfl⟩
  case sp => exact State.incSp_reg_of_decSp (r := 7) hsp hsp
  case value =>
    calc t'.incSp.reg r' = t'.reg r' := t'.incSp_reg_of_ne hr'
      _ = s.reg r := by simp [t', hload]
  case regs => exact fun q hq => State.incSp_reg_of_decSp (hregs q (List.ne_of_not_mem_cons hq)) hsp

/-- Settles O41: RET reads the cell CALL wrote, and its increment takes CALL's decrement back. -/
theorem callThenRetComesBack : Obligations.CallThenRetComesBack := by
  intro c ra s t hw hr hcall hstep hret
  obtain rfl : effect (.call ra) s = t := Host.Outcome.next.inj ((stepWith_of_instrAt hr hcall).symm.trans hstep)
  have hload := (State.read_write_pushAddr hw (BitVec.ofNat 8 (s.pc + 2))).1
  refine ⟨_, stepWith_of_instrAt hr hret, ?pc, State.incSp_reg_of_decSp (r := 7) rfl rfl,
    fun _ _ => State.incSp_reg_of_decSp rfl rfl⟩
  case pc =>
    have hp := hcall.1
    exact (congrArg BitVec.toNat hload).trans (Nat.mod_eq_of_lt (by omega))

/-- Settles O42: the fetch reads the cell PUSH wrote, and the two cells after it as they were. -/
theorem storeIsSeenByTheNextFetch : Obligations.StoreIsSeenByTheNextFetch := by
  intro c ra s t hw hr hpush hra haddr hp hstep
  obtain rfl : effect (.push ra) s = t := Host.Outcome.next.inj ((stepWith_of_instrAt hr hpush).symm.trans hstep)
  have hpc : (effect (.push ra) s).pc = s.pc + 2 := rfl
  have hmem : (effect (.push ra) s).mem = s.mem.write s.pushAddr (s.reg ra) :=
    congrArg (s.mem.write s.pushAddr) (s.decSp_reg_of_ne hra)
  obtain ⟨hread, hcells⟩ := State.read_write_pushAddr hw (s.reg ra)
  rw [haddr] at hmem hread hcells
  refine ⟨hpc, ?_⟩
  rw [State.fetch_eq, hpc, if_pos hp, hmem, hread, hcells (s.pc + 2 + 1) (by omega), hcells (s.pc + 2 + 2) (by omega)]

end Sys2Proof.Machine
end

section
/-! PROOFS. Memory accesses (20_memory.md), reset and load (10_state.md, 70_reset_and_hazards.md), and the run to halt
(40_execution_cycle.md). -/

namespace Sys2Proof.Machine

/-! ### Memory accesses -/

theorem State.memRead_of_le {s : State} {a : Nat} (ha : a ≤ 255) : s.memRead a = .ok (s.mem.read a) :=
  if_neg (Nat.not_lt.mpr ha)

theorem State.memWrite_of_le {s : State} {a : Nat} (v : Nat) (ha : a ≤ 255) :
    s.memWrite a v = .ok (s.setMem (s.mem.write a (BitVec.ofNat 8 v))) :=
  if_neg (Nat.not_lt.mpr ha)

/-- Settles O44: inside the range one cell is written and read back, outside it the check fails. -/
theorem memoryAccessesAreRangeChecked : Obligations.MemoryAccessesAreRangeChecked := by
  intro s a v hw
  refine ⟨fun ha => ⟨_, State.memWrite_of_le v ha, ?read, ?cells, rfl, ?wf⟩, fun ha => ⟨if_pos ha, if_pos ha⟩⟩
  case read =>
    have hmod : BitVec.ofNat 8 (v % 256) = BitVec.ofNat 8 v := BitVec.eq_of_toNat_eq (by simp)
    rw [State.memRead_of_le ha, State.setMem_mem, Memory.read_write _ _ hw.1, if_pos rfl, hmod]
  case cells =>
    intro b hb
    rw [State.setMem_mem, Memory.read_write _ _ hw.1, if_neg hb]
  case wf => exact Memory.write_wf _ (Nat.lt_succ_of_le ha) hw

/-! ### Reset and load -/

theorem State.resetWith_reg (c : Config) (r : Reg) : (State.resetWith c).reg r = if r = 7 then c.spReset else 0#8 := by
  fin_cases r <;> rfl

/-- Settles O46: every field is the one `resetWith` states, and an empty memory reads as 0. -/
theorem resetGivesTheStatedValues : Obligations.ResetGivesTheStatedValues :=
  ⟨fun c => ⟨fun _ => rfl, State.resetWith_reg c, rfl, rfl, rfl, rfl, rfl⟩, rfl, rfl⟩

/-- A byte of the image stands in its cell, and the cells after the image read as 0 (R132). -/
theorem Memory.read_writeBytes_nil (image : List Byte) (k : Nat) :
    (Memory.writeBytes [] 0 image).read k = image.getD k 0#8 := by
  rw [Memory.read_writeBytes 0 image List.Pairwise.nil]
  split
  next => rw [Nat.sub_zero]
  next hk =>
    rw [List.getD_eq_default _ _ (by omega)]
    rfl

/-- Settles O47: an image that fits is written to the empty memory of reset, and a longer one is refused. -/
theorem loadPlacesTheImage : Obligations.LoadPlacesTheImage := by
  intro c image
  refine ⟨fun hlength => ?fits, fun hlength => if_pos hlength⟩
  case fits =>
    have hload : State.init c image = .next ((State.resetWith c).setMem (Memory.writeBytes [] 0 image)) :=
      if_neg (Nat.not_lt.mpr hlength)
    have hreset := inv_resetWith c
    have hwf : ((State.resetWith c).setMem (Memory.writeBytes [] 0 image)).mem.wf :=
      State.loadImage_wf hreset.mem_wf hload
    exact ⟨_, hload, Memory.read_writeBytes_nil image, rfl, hwf, hreset.pc_le, hreset.err_halted⟩

/-! ### The run to halt -/

theorem State.stepsToHalt_of_halted {s : State} (c : Config) (fuel : Nat) (hr : s.run = .halted) :
    s.stepsToHalt c fuel = some (.next s) := by
  unfold State.stepsToHalt
  simp only [hr]

theorem State.stepsToHalt_succ {s t : State} {c : Config} (n : Nat) (hr : s.run = .running) (hstep : stepWith c s = .next t) :
    s.stepsToHalt c (n + 1) = t.stepsToHalt c n := by
  rw [State.stepsToHalt.eq_def]
  simp only [hr, hstep]

theorem State.runToHalt_of_running {s : State} (c : Config) (fuel : Nat) (hr : s.run = .running) :
    s.runToHalt c fuel = s.stepsToHalt c fuel := by
  simp only [State.runToHalt, hr]

/-- What `stepsToHalt` gives is the state itself when HALTED, and otherwise what it gives of the next state with less fuel. -/
theorem State.stepsToHalt_cases {s : State} {c : Config} {fuel : Nat} {o : Host.Outcome State Fault Refusal}
    (h : s.stepsToHalt c fuel = some o) :
    (s.run = .halted ∧ o = .next s) ∨
    (s.run = .running ∧ ∃ n t, fuel = n + 1 ∧ stepWith c s = .next t ∧ t.stepsToHalt c n = some o) := by
  cases hr : s.run with
  | halted =>
    rw [State.stepsToHalt_of_halted c fuel hr] at h
    exact .inl ⟨rfl, (Option.some.inj h).symm⟩
  | running =>
    cases fuel with
    | zero =>
      unfold State.stepsToHalt at h
      simp only [hr, reduceCtorEq] at h
    | succ n =>
      obtain ⟨t, hstep, -⟩ := stepWith_result c s
      rw [State.stepsToHalt_succ n hr hstep] at h
      exact .inr ⟨rfl, n, t, rfl, hstep, h⟩

/-- What `stepsToHalt` gives is a HALTED state that the engine reaches within the fuel, and more fuel gives it too. -/
theorem State.stepsToHalt_reaches {fuel : Nat} {s : State} {o : Host.Outcome State Fault Refusal}
    (h : s.stepsToHalt Config.standard fuel = some o) :
    ∃ t, o = .next t ∧ t.run = .halted ∧ (∃ k ≤ fuel, Host.Core.run Sys2Proof.core k s = .next t) ∧
      ∀ more, s.stepsToHalt Config.standard (fuel + more) = some o := by
  induction fuel using Nat.strong_induction_on generalizing s with
  | _ fuel ih =>
    obtain ⟨hr, rfl⟩ | ⟨hr, n, u, rfl, hstep, hu⟩ := State.stepsToHalt_cases h
    · exact ⟨s, rfl, hr, ⟨0, Nat.zero_le _, rfl⟩, fun more => State.stepsToHalt_of_halted _ _ hr⟩
    · obtain ⟨t, ho, hhalted, ⟨k, hk, hrun⟩, hmore⟩ := ih n (Nat.lt_succ_self n) hu
      refine ⟨t, ho, hhalted, ⟨k + 1, Nat.succ_le_succ hk, (core_run_next k hstep).trans hrun⟩, fun more => ?_⟩
      rw [Nat.add_right_comm, State.stepsToHalt_succ _ hr hstep, hmore]

/-- Settles O48: from RUNNING, `runToHalt` is `stepsToHalt`. -/
theorem runToHaltGivesTheFinalState : Obligations.RunToHaltGivesTheFinalState := by
  intro fuel s o hr h
  simp only [State.runToHalt_of_running _ _ hr] at h ⊢
  exact State.stepsToHalt_reaches h

end Sys2Proof.Machine
end
